-- ==== Sys2Proof/Word.lean ====
section
/-! DEFINITION. The word types of the core (`00_scope.md` R4): every value is an unsigned number of fixed width. -/

namespace Sys2Proof

/-- One byte: a V register, a memory cell, a timer (`00_scope.md` R4, `REG_W`, `TIMER_W`). -/
abbrev Byte := BitVec 8

/-- Sixteen bits: the instruction word, `I`, `pc`, a stack slot (`00_scope.md` R4, `IR_W`, `I_W`, `PC_W`, `STACK_W`). -/
abbrev Word := BitVec 16

/-- The immediate address field `nnn` (`30_encoding.md` R51). -/
abbrev Addr12 := BitVec 12

/-- A four-bit field of the instruction word (`30_encoding.md` R51). -/
abbrev Nibble := BitVec 4

/-- The number of a V register, 0 to 15 (`10_state.md` R10). -/
abbrev RegIdx := Fin 16

/-- `VF = V[15]`, the flag (`10_state.md` R11). -/
def VF : RegIdx := 15

end Sys2Proof
end

