-- ==== Sys2Proof/Syntax.lean ====
section
/-! DEFINITION. The instructions, one constructor per row of spec/opcode_table.json, in the table's order
(`30_encoding.md` R59, R64). Operands are the fields that R51 and R56 give each row; a bit a row ignores is no
operand, but for the four no-op rows, which keep the word they were read from (log entry 10). -/

namespace Sys2Proof

inductive Instr where
  /-- Row 1, `CLS`. -/
  | cls
  /-- Row 2, `RET`. -/
  | ret
  /-- Row 3, `JP nnn`. -/
  | jpNnn (nnn : Addr12)
  /-- Row 4, `CALL nnn`. -/
  | callNnn (nnn : Addr12)
  /-- Row 5, `SE Vx,kk`. -/
  | seVxKk (x : RegIdx) (kk : Byte)
  /-- Row 6, `SNE Vx,kk`. -/
  | sneVxKk (x : RegIdx) (kk : Byte)
  /-- Row 7, `SE Vx,Vy`. -/
  | seVxVy (x y : RegIdx)
  /-- Row 8, `LD Vx,kk`. -/
  | ldVxKk (x : RegIdx) (kk : Byte)
  /-- Row 9, `ADD Vx,kk`. -/
  | addVxKk (x : RegIdx) (kk : Byte)
  /-- Row 10, `LD Vx,Vy`. -/
  | ldVxVy (x y : RegIdx)
  /-- Row 11, `OR Vx,Vy`. -/
  | orVxVy (x y : RegIdx)
  /-- Row 12, `AND Vx,Vy`. -/
  | andVxVy (x y : RegIdx)
  /-- Row 13, `XOR Vx,Vy`. -/
  | xorVxVy (x y : RegIdx)
  /-- Row 14, `ADD Vx,Vy`. -/
  | addVxVy (x y : RegIdx)
  /-- Row 15, `SUB Vx,Vy`. -/
  | subVxVy (x y : RegIdx)
  /-- Row 16, `SHR Vx`. -/
  | shrVx (x : RegIdx)
  /-- Row 17, `SUBN Vx,Vy`. -/
  | subnVxVy (x y : RegIdx)
  /-- Row 18, `SHL Vx`. -/
  | shlVx (x : RegIdx)
  /-- Row 19, `SNE Vx,Vy`. -/
  | sneVxVy (x y : RegIdx)
  /-- Row 20, `LD I,nnn`. -/
  | ldINnn (nnn : Addr12)
  /-- Row 21, `JP V0,nnn`. -/
  | jpV0Nnn (nnn : Addr12)
  /-- Row 22, `RND Vx,kk`. -/
  | rndVxKk (x : RegIdx) (kk : Byte)
  /-- Row 23, `DRW Vx,Vy,n`. -/
  | drwVxVyN (x y : RegIdx) (n : Nibble)
  /-- Row 24, `SKP Vx`. -/
  | skpVx (x : RegIdx)
  /-- Row 25, `SKNP Vx`. -/
  | sknpVx (x : RegIdx)
  /-- Row 26, `LD Vx,DT`. -/
  | ldVxDt (x : RegIdx)
  /-- Row 27, `LD Vx,K`. -/
  | ldVxK (x : RegIdx)
  /-- Row 28, `LD DT,Vx`. -/
  | ldDtVx (x : RegIdx)
  /-- Row 29, `LD ST,Vx`. -/
  | ldStVx (x : RegIdx)
  /-- Row 30, `ADD I,Vx`. -/
  | addIVx (x : RegIdx)
  /-- Row 31, `LD F,Vx`. -/
  | ldFVx (x : RegIdx)
  /-- Row 32, `LD B,Vx`. -/
  | ldBVx (x : RegIdx)
  /-- Row 33, `LD [I],Vx`. -/
  | ldMemVx (x : RegIdx)
  /-- Row 34, `LD Vx,[I]`. -/
  | ldVxMem (x : RegIdx)
  /-- Row 35, `NOP` of group 0; `low` is `ir[11:0]`, which the no-op ignores. -/
  | nopGroup0 (low : Addr12)
  /-- Row 36, `NOP` of group 8; `low` is `ir[11:0]`, which the no-op ignores. -/
  | nopGroup8 (low : Addr12)
  /-- Row 37, `NOP` of group E; `low` is `ir[11:0]`, which the no-op ignores. -/
  | nopGroupE (low : Addr12)
  /-- Row 38, `NOP` of group F; `low` is `ir[11:0]`, which the no-op ignores. -/
  | nopGroupF (low : Addr12)
  deriving DecidableEq, Repr

end Sys2Proof
end

