-- ==== Sys2Proof/WellFormed.lean ====
section
/-! DEFINITION. Which terms of `Instr` are instructions of the hardware. The operand types already bound every
register number, byte, address and row count (`30_encoding.md` R51, R53). What is left to check is that a no-op
stands for a word whose secondary selector is unmapped (R58): a mapped selector is another instruction. -/

namespace Sys2Proof

/-- `ir[3:0]` of a word of group 0 that R58 lists as unmapped. -/
def unmapped0 (low : Addr12) : Bool :=
  !([0x0, 0xE] : List Nat).contains (low.toNat % 16)

/-- `ir[3:0]` of a word of group 8 that R58 lists as unmapped. -/
def unmapped8 (low : Addr12) : Bool :=
  !([0x0, 0x1, 0x2, 0x3, 0x4, 0x5, 0x6, 0x7, 0xE] : List Nat).contains (low.toNat % 16)

/-- `ir[3:0]` of a word of group E that R58 lists as unmapped. -/
def unmappedE (low : Addr12) : Bool :=
  !([0xE, 0x1] : List Nat).contains (low.toNat % 16)

/-- `ir[7:0]` of a word of group F that R58 lists as unmapped. -/
def unmappedF (low : Addr12) : Bool :=
  !([0x07, 0x0A, 0x15, 0x18, 0x1E, 0x29, 0x33, 0x55, 0x65] : List Nat).contains (low.toNat % 256)

/-- The instruction is one that some word of `30_encoding.md` R59 stands for. -/
def Instr.wellFormed : Instr → Bool
  | .cls => true
  | .ret => true
  | .jpNnn _ => true
  | .callNnn _ => true
  | .seVxKk _ _ => true
  | .sneVxKk _ _ => true
  | .seVxVy _ _ => true
  | .ldVxKk _ _ => true
  | .addVxKk _ _ => true
  | .ldVxVy _ _ => true
  | .orVxVy _ _ => true
  | .andVxVy _ _ => true
  | .xorVxVy _ _ => true
  | .addVxVy _ _ => true
  | .subVxVy _ _ => true
  | .shrVx _ => true
  | .subnVxVy _ _ => true
  | .shlVx _ => true
  | .sneVxVy _ _ => true
  | .ldINnn _ => true
  | .jpV0Nnn _ => true
  | .rndVxKk _ _ => true
  | .drwVxVyN _ _ _ => true
  | .skpVx _ => true
  | .sknpVx _ => true
  | .ldVxDt _ => true
  | .ldVxK _ => true
  | .ldDtVx _ => true
  | .ldStVx _ => true
  | .addIVx _ => true
  | .ldFVx _ => true
  | .ldBVx _ => true
  | .ldMemVx _ => true
  | .ldVxMem _ => true
  | .nopGroup0 low => unmapped0 low
  | .nopGroup8 low => unmapped8 low
  | .nopGroupE low => unmappedE low
  | .nopGroupF low => unmappedF low

end Sys2Proof
end

