-- ==== Sys2Proof/Decode.lean ====
section
/-! DEFINITION. The decoder of `30_encoding.md` R54 to R58, total on words (R60) and on any bytes; the encoder,
from the opcode map R59; and the opcode map itself as the ordered list that R64 reads. -/

namespace Sys2Proof

/-! ## Fields (`30_encoding.md` R51) -/

/-- `g = ir[15:12]`, the primary selector. -/
def fieldG (w : Word) : Nibble := w.extractLsb' 12 4

/-- `x = ir[11:8]`, a register number. -/
def fieldX (w : Word) : RegIdx := (w.extractLsb' 8 4).toFin

/-- `y = ir[7:4]`, a register number. -/
def fieldY (w : Word) : RegIdx := (w.extractLsb' 4 4).toFin

/-- `n = ir[3:0]`: the height of a sprite; the selector of groups 0, 8 and E. -/
def fieldN (w : Word) : Nibble := w.extractLsb' 0 4

/-- `kk = ir[7:0]`: the immediate byte; the selector of group F. -/
def fieldKk (w : Word) : Byte := w.extractLsb' 0 8

/-- `nnn = ir[11:0]`: the immediate address. -/
def fieldNnn (w : Word) : Addr12 := w.extractLsb' 0 12

/-! ## The decoder -/

/-- The secondary table of group 0, on `ir[3:0]` (R55, R57, R58). -/
def decodeGroup0 (w : Word) : Instr :=
  match fieldN w with
  | 0x0#4 => .cls
  | 0xE#4 => .ret
  | _ => .nopGroup0 (fieldNnn w)

/-- The secondary table of group 8, on `ir[3:0]` (R55, R57, R58). -/
def decodeGroup8 (w : Word) : Instr :=
  match fieldN w with
  | 0x0#4 => .ldVxVy (fieldX w) (fieldY w)
  | 0x1#4 => .orVxVy (fieldX w) (fieldY w)
  | 0x2#4 => .andVxVy (fieldX w) (fieldY w)
  | 0x3#4 => .xorVxVy (fieldX w) (fieldY w)
  | 0x4#4 => .addVxVy (fieldX w) (fieldY w)
  | 0x5#4 => .subVxVy (fieldX w) (fieldY w)
  | 0x6#4 => .shrVx (fieldX w)
  | 0x7#4 => .subnVxVy (fieldX w) (fieldY w)
  | 0xE#4 => .shlVx (fieldX w)
  | _ => .nopGroup8 (fieldNnn w)

/-- The secondary table of group E, on `ir[3:0]` (R55, R57, R58). -/
def decodeGroupE (w : Word) : Instr :=
  match fieldN w with
  | 0xE#4 => .skpVx (fieldX w)
  | 0x1#4 => .sknpVx (fieldX w)
  | _ => .nopGroupE (fieldNnn w)

/-- The secondary table of group F, on `ir[7:0]` (R55, R58). -/
def decodeGroupF (w : Word) : Instr :=
  match fieldKk w with
  | 0x07#8 => .ldVxDt (fieldX w)
  | 0x0A#8 => .ldVxK (fieldX w)
  | 0x15#8 => .ldDtVx (fieldX w)
  | 0x18#8 => .ldStVx (fieldX w)
  | 0x1E#8 => .addIVx (fieldX w)
  | 0x29#8 => .ldFVx (fieldX w)
  | 0x33#8 => .ldBVx (fieldX w)
  | 0x55#8 => .ldMemVx (fieldX w)
  | 0x65#8 => .ldVxMem (fieldX w)
  | _ => .nopGroupF (fieldNnn w)

/-- The whole decoder (R58): the primary table on the top nibble (R54). The last arm is group F, the one value of
four bits that the arms above it leave. -/
def decode (w : Word) : Instr :=
  match fieldG w with
  | 0x0#4 => decodeGroup0 w
  | 0x1#4 => .jpNnn (fieldNnn w)
  | 0x2#4 => .callNnn (fieldNnn w)
  | 0x3#4 => .seVxKk (fieldX w) (fieldKk w)
  | 0x4#4 => .sneVxKk (fieldX w) (fieldKk w)
  | 0x5#4 => .seVxVy (fieldX w) (fieldY w)
  | 0x6#4 => .ldVxKk (fieldX w) (fieldKk w)
  | 0x7#4 => .addVxKk (fieldX w) (fieldKk w)
  | 0x8#4 => decodeGroup8 w
  | 0x9#4 => .sneVxVy (fieldX w) (fieldY w)
  | 0xA#4 => .ldINnn (fieldNnn w)
  | 0xB#4 => .jpV0Nnn (fieldNnn w)
  | 0xC#4 => .rndVxKk (fieldX w) (fieldKk w)
  | 0xD#4 => .drwVxVyN (fieldX w) (fieldY w) (fieldN w)
  | 0xE#4 => decodeGroupE w
  | _ => decodeGroupF w

/-! ## Words and bytes (`20_memory.md` R33) -/

/-- Two bytes as they stand in memory, the one at the lower address first, make a word: big-endian. -/
def wordOfBytes (hi lo : Byte) : Word := hi ++ lo

/-- The byte at the lower address: `ir[15:8]`. -/
def highByte (w : Word) : Byte := w.extractLsb' 8 8

/-- The byte at the higher address: `ir[7:0]`. -/
def lowByte (w : Word) : Byte := w.extractLsb' 0 8

/-- Why bytes give no instruction. No word is refused (R60); too few bytes are. -/
inductive DecodeError where
  /-- Fewer than the two bytes every instruction has (R50). -/
  | truncated
  deriving DecidableEq, Repr

/-- Read one instruction from the front of any list of bytes; answer it with the rest of the list. -/
def decodeBytes : List Byte → Except DecodeError (Instr × List Byte)
  | hi :: lo :: rest => .ok (decode (wordOfBytes hi lo), rest)
  | _ => .error .truncated

/-! ## The encoder (`30_encoding.md` R52, R59; ignored bits as in the canonical encodings of R56, R57) -/

/-- A register number as the four bits of its field. -/
def regBits (r : RegIdx) : Nibble := BitVec.ofFin r

/-- Format NNN. -/
def formatNnn (g : Nibble) (nnn : Addr12) : Word := g ++ nnn

/-- Format XKK, and format X of group F with its selector for `kk`. -/
def formatXkk (g : Nibble) (x : RegIdx) (kk : Byte) : Word := g ++ regBits x ++ kk

/-- Formats XY and XYN. -/
def formatXyn (g : Nibble) (x y : RegIdx) (n : Nibble) : Word := g ++ regBits x ++ regBits y ++ n

/-- The word of an instruction: the canonical encoding of R59. `SHR` and `SHL` have `y` = 0 (R62). -/
def encode : Instr → Word
  | .cls => 0x00E0#16
  | .ret => 0x00EE#16
  | .jpNnn nnn => formatNnn 0x1#4 nnn
  | .callNnn nnn => formatNnn 0x2#4 nnn
  | .seVxKk x kk => formatXkk 0x3#4 x kk
  | .sneVxKk x kk => formatXkk 0x4#4 x kk
  | .seVxVy x y => formatXyn 0x5#4 x y 0x0#4
  | .ldVxKk x kk => formatXkk 0x6#4 x kk
  | .addVxKk x kk => formatXkk 0x7#4 x kk
  | .ldVxVy x y => formatXyn 0x8#4 x y 0x0#4
  | .orVxVy x y => formatXyn 0x8#4 x y 0x1#4
  | .andVxVy x y => formatXyn 0x8#4 x y 0x2#4
  | .xorVxVy x y => formatXyn 0x8#4 x y 0x3#4
  | .addVxVy x y => formatXyn 0x8#4 x y 0x4#4
  | .subVxVy x y => formatXyn 0x8#4 x y 0x5#4
  | .shrVx x => formatXyn 0x8#4 x 0 0x6#4
  | .subnVxVy x y => formatXyn 0x8#4 x y 0x7#4
  | .shlVx x => formatXyn 0x8#4 x 0 0xE#4
  | .sneVxVy x y => formatXyn 0x9#4 x y 0x0#4
  | .ldINnn nnn => formatNnn 0xA#4 nnn
  | .jpV0Nnn nnn => formatNnn 0xB#4 nnn
  | .rndVxKk x kk => formatXkk 0xC#4 x kk
  | .drwVxVyN x y n => formatXyn 0xD#4 x y n
  | .skpVx x => formatXkk 0xE#4 x 0x9E#8
  | .sknpVx x => formatXkk 0xE#4 x 0xA1#8
  | .ldVxDt x => formatXkk 0xF#4 x 0x07#8
  | .ldVxK x => formatXkk 0xF#4 x 0x0A#8
  | .ldDtVx x => formatXkk 0xF#4 x 0x15#8
  | .ldStVx x => formatXkk 0xF#4 x 0x18#8
  | .addIVx x => formatXkk 0xF#4 x 0x1E#8
  | .ldFVx x => formatXkk 0xF#4 x 0x29#8
  | .ldBVx x => formatXkk 0xF#4 x 0x33#8
  | .ldMemVx x => formatXkk 0xF#4 x 0x55#8
  | .ldVxMem x => formatXkk 0xF#4 x 0x65#8
  | .nopGroup0 low => formatNnn 0x0#4 low
  | .nopGroup8 low => formatNnn 0x8#4 low
  | .nopGroupE low => formatNnn 0xE#4 low
  | .nopGroupF low => formatNnn 0xF#4 low

/-- The bytes of an instruction in memory order. -/
def encodeBytes (i : Instr) : List Byte := [highByte (encode i), lowByte (encode i)]

/-- The bits of an instruction's words that are not ignored: the fixed bits and the operands of its row
(the column `encoding` of the opcode table, every position but `-`). A no-op keeps its word whole. -/
def significantBits : Instr → Word
  | .cls => 0xF00F#16
  | .ret => 0xF00F#16
  | .jpNnn _ => 0xFFFF#16
  | .callNnn _ => 0xFFFF#16
  | .seVxKk _ _ => 0xFFFF#16
  | .sneVxKk _ _ => 0xFFFF#16
  | .seVxVy _ _ => 0xFFF0#16
  | .ldVxKk _ _ => 0xFFFF#16
  | .addVxKk _ _ => 0xFFFF#16
  | .ldVxVy _ _ => 0xFFFF#16
  | .orVxVy _ _ => 0xFFFF#16
  | .andVxVy _ _ => 0xFFFF#16
  | .xorVxVy _ _ => 0xFFFF#16
  | .addVxVy _ _ => 0xFFFF#16
  | .subVxVy _ _ => 0xFFFF#16
  | .shrVx _ => 0xFF0F#16
  | .subnVxVy _ _ => 0xFFFF#16
  | .shlVx _ => 0xFF0F#16
  | .sneVxVy _ _ => 0xFFF0#16
  | .ldINnn _ => 0xFFFF#16
  | .jpV0Nnn _ => 0xFFFF#16
  | .rndVxKk _ _ => 0xFFFF#16
  | .drwVxVyN _ _ _ => 0xFFFF#16
  | .skpVx _ => 0xFF0F#16
  | .sknpVx _ => 0xFF0F#16
  | .ldVxDt _ => 0xFFFF#16
  | .ldVxK _ => 0xFFFF#16
  | .ldDtVx _ => 0xFFFF#16
  | .ldStVx _ => 0xFFFF#16
  | .addIVx _ => 0xFFFF#16
  | .ldFVx _ => 0xFFFF#16
  | .ldBVx _ => 0xFFFF#16
  | .ldMemVx _ => 0xFFFF#16
  | .ldVxMem _ => 0xFFFF#16
  | .nopGroup0 _ => 0xFFFF#16
  | .nopGroup8 _ => 0xFFFF#16
  | .nopGroupE _ => 0xFFFF#16
  | .nopGroupF _ => 0xFFFF#16

/-! ## The opcode map as data (`30_encoding.md` R59, R64) -/

/-- One row: a word `w` is the row's instruction when `w & mask = pattern` and no earlier row matches. -/
structure OpcodeRow where
  mask : Word
  pattern : Word
  build : Word → Instr

/-- The row matches the word. -/
def OpcodeRow.hits (r : OpcodeRow) (w : Word) : Bool := w &&& r.mask == r.pattern

/-- Rows 1 to 9. -/
def opcodeRowsLow : List OpcodeRow :=
  [⟨0xF00F, 0x0000, fun _ => .cls⟩,
   ⟨0xF00F, 0x000E, fun _ => .ret⟩,
   ⟨0xF000, 0x1000, fun w => .jpNnn (fieldNnn w)⟩,
   ⟨0xF000, 0x2000, fun w => .callNnn (fieldNnn w)⟩,
   ⟨0xF000, 0x3000, fun w => .seVxKk (fieldX w) (fieldKk w)⟩,
   ⟨0xF000, 0x4000, fun w => .sneVxKk (fieldX w) (fieldKk w)⟩,
   ⟨0xF000, 0x5000, fun w => .seVxVy (fieldX w) (fieldY w)⟩,
   ⟨0xF000, 0x6000, fun w => .ldVxKk (fieldX w) (fieldKk w)⟩,
   ⟨0xF000, 0x7000, fun w => .addVxKk (fieldX w) (fieldKk w)⟩]

/-- Rows 10 to 18, group 8. -/
def opcodeRowsAlu : List OpcodeRow :=
  [⟨0xF00F, 0x8000, fun w => .ldVxVy (fieldX w) (fieldY w)⟩,
   ⟨0xF00F, 0x8001, fun w => .orVxVy (fieldX w) (fieldY w)⟩,
   ⟨0xF00F, 0x8002, fun w => .andVxVy (fieldX w) (fieldY w)⟩,
   ⟨0xF00F, 0x8003, fun w => .xorVxVy (fieldX w) (fieldY w)⟩,
   ⟨0xF00F, 0x8004, fun w => .addVxVy (fieldX w) (fieldY w)⟩,
   ⟨0xF00F, 0x8005, fun w => .subVxVy (fieldX w) (fieldY w)⟩,
   ⟨0xF00F, 0x8006, fun w => .shrVx (fieldX w)⟩,
   ⟨0xF00F, 0x8007, fun w => .subnVxVy (fieldX w) (fieldY w)⟩,
   ⟨0xF00F, 0x800E, fun w => .shlVx (fieldX w)⟩]

/-- Rows 19 to 34. -/
def opcodeRowsHigh : List OpcodeRow :=
  [⟨0xF000, 0x9000, fun w => .sneVxVy (fieldX w) (fieldY w)⟩,
   ⟨0xF000, 0xA000, fun w => .ldINnn (fieldNnn w)⟩,
   ⟨0xF000, 0xB000, fun w => .jpV0Nnn (fieldNnn w)⟩,
   ⟨0xF000, 0xC000, fun w => .rndVxKk (fieldX w) (fieldKk w)⟩,
   ⟨0xF000, 0xD000, fun w => .drwVxVyN (fieldX w) (fieldY w) (fieldN w)⟩,
   ⟨0xF00F, 0xE00E, fun w => .skpVx (fieldX w)⟩,
   ⟨0xF00F, 0xE001, fun w => .sknpVx (fieldX w)⟩,
   ⟨0xF0FF, 0xF007, fun w => .ldVxDt (fieldX w)⟩,
   ⟨0xF0FF, 0xF00A, fun w => .ldVxK (fieldX w)⟩,
   ⟨0xF0FF, 0xF015, fun w => .ldDtVx (fieldX w)⟩,
   ⟨0xF0FF, 0xF018, fun w => .ldStVx (fieldX w)⟩,
   ⟨0xF0FF, 0xF01E, fun w => .addIVx (fieldX w)⟩,
   ⟨0xF0FF, 0xF029, fun w => .ldFVx (fieldX w)⟩,
   ⟨0xF0FF, 0xF033, fun w => .ldBVx (fieldX w)⟩,
   ⟨0xF0FF, 0xF055, fun w => .ldMemVx (fieldX w)⟩,
   ⟨0xF0FF, 0xF065, fun w => .ldVxMem (fieldX w)⟩]

/-- Rows 1 to 34, the defined instructions. -/
def definedRows : List OpcodeRow := opcodeRowsLow ++ opcodeRowsAlu ++ opcodeRowsHigh

/-- Rows 35 to 38, the fallback no-ops, which come last (R64). -/
def fallbackRows : List OpcodeRow :=
  [⟨0xF000, 0x0000, fun w => .nopGroup0 (fieldNnn w)⟩,
   ⟨0xF000, 0x8000, fun w => .nopGroup8 (fieldNnn w)⟩,
   ⟨0xF000, 0xE000, fun w => .nopGroupE (fieldNnn w)⟩,
   ⟨0xF000, 0xF000, fun w => .nopGroupF (fieldNnn w)⟩]

/-- The opcode map, 38 rows in order. -/
def opcodeMap : List OpcodeRow := definedRows ++ fallbackRows

/-- Decoding as R64 reads the map: the first row that matches. -/
def mapDecode (w : Word) : Option Instr := (opcodeMap.find? (·.hits w)).map (·.build w)

/-! ## The host's question -/

/-- The instruction the decoder reads from an instruction whose bits are `w`, numbered as the opcode table numbers
them: the word laid out big-endian and given to `decodeBytes`. A number with more bits than it says, or more than an
instruction has, is none. -/
def decodeTableWord (nbits w : Nat) : Option Instr :=
  if nbits ≤ 16 ∧ w < 2 ^ nbits then
    match decodeBytes [highByte (BitVec.ofNat 16 w), lowByte (BitVec.ofNat 16 w)] with
    | .ok (i, _) => some i
    | .error _ => none
  else none

end Sys2Proof
end

