-- ==== Sys2Proof/Config.lean ====
section
/-! DEFINITION. What is fixed for every machine of the spec (`00_scope.md` R4), the parameters a machine is built with
(R5, R6) and their constraints, and the one free value. The defaults of the parameters are in Machine/Params.lean. -/

namespace Sys2Proof.Config

/-- `MEM_SIZE`: bytes of memory, addresses 0 to 4095 (`00_scope.md` R4). -/
def memSize : Nat := 4096

/-- `STACK_DEPTH`: slots in the call stack (`00_scope.md` R4). -/
def stackDepth : Nat := 16

/-- `GLYPH_BYTES`: bytes per glyph of the font (`00_scope.md` R4). -/
def glyphBytes : Nat := 5

/-- `FONT_GLYPHS * GLYPH_BYTES`: bytes of the font table (`00_scope.md` R4). -/
def fontSize : Nat := 80

/-- The two edge policies of `DRW` (`00_scope.md` R6, `43_display.md` R111). -/
inductive DrawEdge where
  | clip
  | wrap
  deriving DecidableEq, Repr

/-- The parameters that the spec leaves to a machine (`00_scope.md` R5, R6): a model takes them as configuration
values. -/
structure Params where
  /-- `LOAD_ADDR` (R5). -/
  loadAddr : Nat
  /-- `FONT_BASE` (R5). -/
  fontBase : Nat
  /-- `FONT_DATA`: 16 glyphs of 5 bytes, glyph 0 first (R5, `20_memory.md` R37). -/
  fontData : Vector Byte fontSize
  /-- `DRAW_EDGE` (R6). -/
  drawEdge : DrawEdge
  deriving DecidableEq, Repr

/-- The constraints of `00_scope.md` R5: the font lies below the load address, and one instruction can be fetched
there. -/
abbrev Params.legal (p : Params) : Prop := p.fontBase + fontSize ≤ p.loadAddr ∧ p.loadAddr ≤ 4094

/-- THE FREE VALUE of the model: the byte the random source gives at the `n`-th draw of a run when the host has
presented none (`10_state.md` R21: "a model must not assume any value, any sequence, or any relation between two
calls"). It has no body: nothing can be proved of its values. DESIGN CHOICE of form, log entry 5, safe. -/
opaque randByte : Nat → Byte

end Sys2Proof.Config
end

