-- ==== Sys2Proof/Machine/Params.lean ====
section
/-! DEFINITION. The defaults of the parameters (`00_scope.md` R5, R6), and what memory holds after reset under given
parameters (`10_state.md` R27), which is what an unlisted address reads as. -/

namespace Sys2Proof.Config

/-- `FONT_DATA`, glyphs 0 to 7 (`20_memory.md` R37). PRESUMED, log entry 2, unsafe. -/
def fontLow : List Byte :=
  [0xF0, 0x90, 0x90, 0x90, 0xF0, 0x20, 0x60, 0x20, 0x20, 0x70] ++
  [0xF0, 0x10, 0xF0, 0x80, 0xF0, 0xF0, 0x10, 0xF0, 0x10, 0xF0] ++
  [0x90, 0x90, 0xF0, 0x10, 0x10, 0xF0, 0x80, 0xF0, 0x10, 0xF0] ++
  [0xF0, 0x80, 0xF0, 0x90, 0xF0, 0xF0, 0x10, 0x20, 0x40, 0x40]

/-- `FONT_DATA`, glyphs 8 to F (`20_memory.md` R37). PRESUMED, log entry 2, unsafe. -/
def fontHigh : List Byte :=
  [0xF0, 0x90, 0xF0, 0x90, 0xF0, 0xF0, 0x90, 0xF0, 0x10, 0xF0] ++
  [0xF0, 0x90, 0xF0, 0x90, 0x90, 0xE0, 0x90, 0xE0, 0x90, 0xE0] ++
  [0xF0, 0x80, 0x80, 0x80, 0xF0, 0xE0, 0x90, 0x90, 0x90, 0xE0] ++
  [0xF0, 0x80, 0xF0, 0x80, 0xF0, 0xF0, 0x80, 0xF0, 0x80, 0x80]

/-- The machine with every parameter at its default. PRESUMED: `LOAD_ADDR` 0x200, `FONT_BASE` 0x050 and the font are
from general knowledge of CHIP-8 (R5, D7 to D9); log entries 1 and 2. DESIGN CHOICE: `DRAW_EDGE` is the default of R6
(D12); log entry 3. Unsafe where a claim uses a value; the statements hold for every legal `Params`. -/
def defaults : Params where
  loadAddr := 0x200
  fontBase := 0x050
  fontData := ⟨(fontLow ++ fontHigh).toArray, rfl⟩
  drawEdge := .clip

/-- What the byte at an address holds after reset, before a program is loaded: the font table at its place, and 0
everywhere else (`10_state.md` R27). It is what an address not listed in a `Memory` reads as. -/
def Params.resetByte (p : Params) (a : Nat) : Byte :=
  if p.fontBase ≤ a then p.fontData[a - p.fontBase]?.getD 0 else 0

end Sys2Proof.Config
end

