-- ==== Sys2Proof/Machine/State.lean ====
section
/-! DEFINITION. The state of the core (`10_state.md` R24), the reasons a step can stop, and the state after reset
(R27). -/

namespace Sys2Proof.Machine

/-- The bytes of memory that differ from their reset contents, by address: addresses strictly rising, no entry
equal to `Config.Params.resetByte`. Read and written through `Memory.read` and `Memory.write` only. -/
abbrev Memory := List Host.Cell

/-- The framebuffer `fb[px][py]`, 64 columns of 32 one-bit pixels (`10_state.md` R19). -/
abbrev Framebuffer := Vector (Vector Bool 32) 64

/-- The 16 key latches, true = pressed (`10_state.md` R20). -/
abbrev Keypad := Vector Bool 16

/-- The six causes of a fault (`60_exceptions.md` R141). -/
inductive Cause where
  | fetchOutOfRange
  | memReadOutOfRange
  | memWriteOutOfRange
  | stackOverflow
  | stackUnderflow
  | keyIndexOutOfRange
  deriving DecidableEq, Repr

/-- What the fault latch holds once set: a cause and a 16-bit number (`10_state.md` R22). -/
structure FaultRecord where
  cause : Cause
  info : Word
  deriving DecidableEq, Repr

/-- The state of the core, its inputs, and the parameters it was built with. -/
structure State where
  /-- `V[0..15]` (R10); `V[15]` is VF (R11). -/
  v : Vector Byte 16
  /-- `I` (R13). -/
  index : Word
  /-- `pc` (R14). -/
  pc : Word
  /-- `sp`, the slots in use, legal 0 to 16 (R15). -/
  sp : Byte
  /-- `stack[0..15]` (R15). -/
  stack : Vector Word 16
  /-- `dt` (R16). -/
  dt : Byte
  /-- `st` (R16). -/
  st : Byte
  /-- `ir`, the last word fetched (R18). -/
  ir : Word
  /-- `fb` (R19). -/
  fb : Framebuffer
  /-- `mem` (R23). -/
  mem : Memory
  /-- `fault`, the latch (R22). -/
  fault : Option FaultRecord
  /-- `key[0..15]`: the snapshot the current cycle works with (R20). -/
  key : Keypad
  /-- The snapshots the host presents to the coming cycles, oldest first (the port `keys_in`,
  `70_reset_and_hazards.md` R171). The model's own field, DESIGN CHOICE, log entry 4. -/
  keysIn : List Keypad
  /-- The bytes the host provides to the coming draws of the random source, oldest first
  (`70_reset_and_hazards.md` R171, row "random"). The model's own field, DESIGN CHOICE, log entry 5. -/
  randIn : List Byte
  /-- How many random bytes have been drawn: the argument of the free value `Config.randByte`. The model's own field,
  DESIGN CHOICE, log entry 5. -/
  randDraws : Nat
  /-- The parameters this machine was built with (`00_scope.md` R5, R6). No instruction and no reset changes them. The
  model's own field, DESIGN CHOICE of form, log entry 20. -/
  params : Config.Params
  deriving DecidableEq, Repr

/-- Why a step can stop with a fault of the MODEL. (The faults of the spec are no stop: the faulting cycle ends in a
next state with the latch set, `60_exceptions.md` R145.) -/
inductive Fault where
  /-- Raised by `RET` alone, when `sp` is above 16: a value that `10_state.md` R15 and R24 call not legal, for which
  the slot popped does not exist. No run reaches it. DESIGN CHOICE, log entry 7, safe. -/
  | stackPointerIllegal
  deriving DecidableEq, Repr

/-- Why there is no meaning. -/
inductive Refusal where
  /-- Raised by `exec` for an instruction that has no meaning yet, by its mnemonic; no arm does. Safe. -/
  | notModelled (mnemonic : String)
  /-- Raised by `boot` for a program image of `len` bytes that does not fit (`70_reset_and_hazards.md` R162: "a model
  gives no meaning to a run whose image does not fit"). Safe. -/
  | imageTooLong (len : Nat)
  deriving DecidableEq, Repr

/-- What running an instruction or a cycle answers. -/
abbrev Result := Host.Outcome State Fault Refusal

/-- The core built with the parameters `p`, right after reset (`10_state.md` R27), before a program is loaded. Memory
lists nothing: every byte holds its reset contents. The last four fields are the model's own, log entries 4, 5, 20. -/
def State.resetWith (p : Config.Params) : State where
  v := Vector.replicate 16 0
  index := 0
  pc := BitVec.ofNat 16 p.loadAddr
  sp := 0
  stack := Vector.replicate 16 0
  dt := 0
  st := 0
  ir := 0
  fb := Vector.replicate 64 (Vector.replicate 32 false)
  mem := []
  fault := none
  key := Vector.replicate 16 false
  keysIn := []
  randIn := []
  randDraws := 0
  params := p

/-- The core with every parameter at its default, right after reset. -/
def State.reset : State := State.resetWith Config.defaults

end Sys2Proof.Machine
end

