-- ==== Sys2Proof/Machine/Ops.lean ====
section
/-! DEFINITION. The named operations over memory, registers, the stack, the random source and the fault latch, which
the meanings are written over. -/

namespace Sys2Proof.Machine

/-! ## Memory (`20_memory.md`), of a machine with the parameters `p`, which fix the reset contents -/

/-- The byte at an address: the last one written there, or its reset contents (`20_memory.md` R36). Unchecked: the
raw `mem[a]`. -/
def Memory.read (p : Config.Params) : Memory → Nat → Byte
  | [], a => p.resetByte a
  | (a', b) :: rest, a => if a' = a then b else Memory.read p rest a

/-- The memory with one byte stored, in canonical form again. Unchecked: the raw `mem[a] <- b`. -/
def Memory.write (p : Config.Params) : Memory → Nat → Byte → Memory
  | [], a, b => if b = p.resetByte a then [] else [(a, b)]
  | (a', b') :: rest, a, b =>
    if a < a' then
      if b = p.resetByte a then (a', b') :: rest else (a, b) :: (a', b') :: rest
    else if a = a' then
      if b = p.resetByte a then rest else (a, b) :: rest
    else (a', b') :: Memory.write p rest a b

/-- The bytes stored one after the other from an address up, in ascending order (`20_memory.md` R35). -/
def Memory.writeAll (p : Config.Params) : Memory → Nat → List Byte → Memory
  | m, _, [] => m
  | m, a, b :: rest => Memory.writeAll p (Memory.write p m a b) (a + 1) rest

/-- `count` bytes read from an address up, in ascending order (`20_memory.md` R35). -/
def Memory.readAll (p : Config.Params) (m : Memory) (a count : Nat) : List Byte :=
  (List.range count).map fun k => Memory.read p m (a + k)

/-- The canonical form, from the address `lo` up: addresses strictly rising and inside memory, no entry equal to the
reset contents. -/
def Memory.wfFrom (p : Config.Params) (lo : Nat) : Memory → Bool
  | [] => true
  | (a, b) :: rest =>
    decide (lo ≤ a) && decide (a < Config.memSize) && !(b == p.resetByte a) && Memory.wfFrom p (a + 1) rest

/-- The canonical form of a memory. Equal contents are equal lists. -/
def Memory.wf (p : Config.Params) (m : Memory) : Bool := Memory.wfFrom p 0 m

/-- The lowest address above 4095 among the `count` addresses from `base` up, if there is one: `max(base, 4096)`
(`20_memory.md` R31, R32, `60_exceptions.md` R143). Addresses are natural numbers, so nothing wraps. -/
def lowestOutOfRange (base count : Nat) : Option Nat :=
  if count = 0 ∨ base + count ≤ Config.memSize then none else some (max base Config.memSize)

/-! ## One setter per register: every write of a meaning goes through these -/

/-- `V[r]`. -/
def State.getV (s : State) (r : RegIdx) : Byte := s.v[r]

/-- `V[r] <- b`. No register is hard-wired (`10_state.md` R10). -/
def State.setV (s : State) (r : RegIdx) (b : Byte) : State := { s with v := s.v.set r b }

/-- `V[0..15]` written at once. -/
def State.setAllV (s : State) (v : Vector Byte 16) : State := { s with v := v }

/-- `I <- w`. -/
def State.setIndex (s : State) (w : Word) : State := { s with index := w }

/-- `pc <- w`. -/
def State.setPc (s : State) (w : Word) : State := { s with pc := w }

/-- `dt <- b`. -/
def State.setDt (s : State) (b : Byte) : State := { s with dt := b }

/-- `st <- b`. -/
def State.setSt (s : State) (b : Byte) : State := { s with st := b }

/-- `ir <- w`: the fetch alone does this (`10_state.md` R18). -/
def State.setIr (s : State) (w : Word) : State := { s with ir := w }

/-- The framebuffer replaced. -/
def State.setFb (s : State) (fb : Framebuffer) : State := { s with fb := fb }

/-- The memory replaced. -/
def State.setMem (s : State) (m : Memory) : State := { s with mem := m }

/-! ## The memory of a state -/

/-- `mem[a]`, unchecked. -/
def State.byteAt (s : State) (a : Nat) : Byte := s.mem.read s.params a

/-- `mem[a]` and the `count - 1` bytes after it, unchecked. -/
def State.bytesAt (s : State) (a count : Nat) : List Byte := s.mem.readAll s.params a count

/-- `mem[a + k] <- bytes[k]`, unchecked. -/
def State.setBytes (s : State) (a : Nat) (bytes : List Byte) : State := s.setMem (s.mem.writeAll s.params a bytes)

/-- The memory is in canonical form. -/
def State.memWf (s : State) : Bool := s.mem.wf s.params

/-! ## Taking a fault (`60_exceptions.md`) -/

/-- The fault latch written: the ONE way a fault is taken (R140, R145). Nothing else changes here; that the faulting
cycle's other writes are discarded is `settle` in Cycle.lean, which sees the state before the cycle. There is no
return from a fault (R146): reset alone clears the latch (`State.hostReset`). -/
def State.latch (s : State) (f : FaultRecord) : State := { s with fault := some f }

/-- `raise cause(info)`: the cycle ends in a next state whose latch holds the record (`60_exceptions.md` R143). -/
def State.raise (s : State) (c : Cause) (info : Word) : Result := .next (s.latch ⟨c, info⟩)

/-! ## Checked accesses (`20_memory.md` R31) -/

/-- `MemRead(base, 1)` to `MemRead(base + count - 1, 1)`: all checked first, the lowest address out of range
reported. -/
def State.readRange (s : State) (base count : Nat) : Except FaultRecord (List Byte) :=
  match lowestOutOfRange base count with
  | some a => .error ⟨.memReadOutOfRange, BitVec.ofNat 16 a⟩
  | none => .ok (s.bytesAt base count)

/-- `MemWrite` of the bytes from `base` up: all addresses checked before any byte is written, the lowest address out
of range reported. -/
def State.writeRange (s : State) (base : Nat) (bytes : List Byte) : Except FaultRecord State :=
  match lowestOutOfRange base bytes.length with
  | some a => .error ⟨.memWriteOutOfRange, BitVec.ofNat 16 a⟩
  | none => .ok (s.setBytes base bytes)

/-- `MemRead(pc, 2)`, the fetch: big-endian, no alignment (`20_memory.md` R31, R33, R34). -/
def State.readWord (s : State) (a : Nat) : Except FaultRecord Word :=
  if a + 2 ≤ Config.memSize then .ok (wordOfBytes (s.byteAt a) (s.byteAt (a + 1)))
  else .error ⟨.fetchOutOfRange, BitVec.ofNat 16 a⟩

/-! ## The call stack (`10_state.md` R15) -/

/-- `Push(v)`: store at `stack[sp]`, then increment; a full stack is a fault. -/
def State.push (s : State) (w : Word) : Except FaultRecord State :=
  if Config.stackDepth ≤ s.sp.toNat then .error ⟨.stackOverflow, s.sp.setWidth 16⟩
  else .ok { s with stack := s.stack.setIfInBounds s.sp.toNat w, sp := s.sp + 1 }

/-- What `Pop()` finds. -/
inductive Popped where
  /-- The stack is empty: a fault. -/
  | empty (f : FaultRecord)
  /-- The slot's value, and the state with `sp` decremented. -/
  | value (w : Word) (s : State)
  /-- `sp` is above 16: no such slot (log entry 7). -/
  | noSlot

/-- `Pop()`: decrement, then load from `stack[sp]`; the slot keeps its value; an empty stack is a fault. -/
def State.pop (s : State) : Popped :=
  if s.sp = 0 then .empty ⟨.stackUnderflow, 0⟩
  else
    match s.stack[s.sp.toNat - 1]? with
    | some w => .value w { s with sp := s.sp - 1 }
    | none => .noSlot

/-! ## The random source (`10_state.md` R21) -/

/-- The byte the next `RandByte()` gives: the one the host presents, or the free value when it presents none. -/
def State.randByte (s : State) : Byte := s.randIn.headD (Config.randByte s.randDraws)

/-- One draw consumed. -/
def State.drawn (s : State) : State :=
  { s with randIn := s.randIn.tail, randDraws := s.randDraws + 1 }

/-! ## The timers (`10_state.md` R17) -/

/-- A counter one lower, never below zero. -/
def countDown (b : Byte) : Byte := if b = 0 then 0 else b - 1

/-- `Tick()`: each timer decremented by 1 while non-zero. -/
def State.tick (s : State) : State := (s.setDt (countDown s.dt)).setSt (countDown s.st)

end Sys2Proof.Machine
end

