-- ==== Sys2Proof/Machine/Flags.lean ====
section
/-! DEFINITION. Every flag computation (`10_state.md` R11): the value each of the six flag-defining instructions
writes to VF. The collision flag of `DRW` is computed with the drawing, in Display.lean. -/

namespace Sys2Proof.Machine

/-- A flag as VF holds it: 1 or 0. -/
def flagByte (c : Bool) : Byte := if c then 1 else 0

/-- `ADD Vx,Vy`: 1 if a + b > 255 (`41_alu.md` R86). -/
def carryFlag (a b : Byte) : Byte := flagByte (decide (255 < a.toNat + b.toNat))

/-- `SUB Vx,Vy` and, the operands exchanged, `SUBN Vx,Vy`: 1 if a > b, strictly (`41_alu.md` R87, R89, R92). -/
def greaterFlag (a b : Byte) : Byte := flagByte (decide (b.toNat < a.toNat))

/-- `SHR Vx`: bit 0, the bit shifted out (`41_alu.md` R88). -/
def lowBitFlag (a : Byte) : Byte := flagByte (a.getLsbD 0)

/-- `SHL Vx`: bit 7, the bit shifted out (`41_alu.md` R90). -/
def highBitFlag (a : Byte) : Byte := flagByte (a.getLsbD 7)

/-- A result and then, last, the flag: with x = 15 the flag stays (`10_state.md` R12). -/
def State.setResultFlag (s : State) (x : RegIdx) (result flag : Byte) : State :=
  (s.setV x result).setV VF flag

end Sys2Proof.Machine
end

