-- ==== Sys2Proof/Machine/Operands.lean ====
section
/-! DEFINITION. The operand forms (`30_encoding.md` R51, R53): how an instruction's fields and the registers they
name become the values an instruction works with. `Vx`, `Vy` and `V0` are `State.getV`. -/

namespace Sys2Proof.Machine

/-- `zext_16(nnn)`: an immediate address in a 16-bit register (R53). -/
def addrWord (nnn : Addr12) : Word := nnn.setWidth 16

/-- `zext_16(V[x])`: a byte in 16-bit arithmetic. -/
def byteWord (b : Byte) : Word := b.setWidth 16

/-- The base of every data access: `I` as a natural number, so that `I` + k never wraps (`20_memory.md` R32). -/
def State.base (s : State) : Nat := s.index.toNat

/-- The target of `JP V0,nnn`: `zext_16(V[0]) + zext_16(nnn)`, at most 0x10FE (`40_control_flow.md` R77). -/
def State.v0Target (s : State) (nnn : Addr12) : Word := byteWord (s.getV 0) + addrWord nnn

/-- `pc + 2`, the target of a skip (`40_control_flow.md` R78). -/
def State.skipTarget (s : State) : Word := s.pc + 2

/-- `Skip()` when the condition holds. -/
def State.skipIf (s : State) (c : Bool) : State := s.setPc (if c then s.skipTarget else s.pc)

/-- `FONT_BASE + 5 * (b & 0x0F)`: the address of a glyph (`42_index_memory.md` R102). -/
def State.glyphAddr (s : State) (b : Byte) : Word :=
  BitVec.ofNat 16 (s.params.fontBase + Config.glyphBytes * (b &&& 0x0F).toNat)

/-- Hundreds, tens and ones of a byte (`42_index_memory.md` R103). -/
def decimalDigits (b : Byte) : List Byte :=
  [BitVec.ofNat 8 (b.toNat / 100), BitVec.ofNat 8 (b.toNat / 10 % 10), BitVec.ofNat 8 (b.toNat % 10)]

/-- The values of V0 to Vx, in order (`42_index_memory.md` R104). -/
def State.regsUpTo (s : State) (x : RegIdx) : List Byte := s.v.toList.take (x.val + 1)

/-- The register file with V0, V1, ... replaced by the bytes of a list, in order (`42_index_memory.md` R105). -/
def State.withRegs (s : State) (bytes : List Byte) : Vector Byte 16 :=
  Vector.ofFn fun r : Fin 16 => bytes[r.val]?.getD s.v[r]

/-- The draw position along the 64-pixel side: `Vx mod 64` (`43_display.md` R112). -/
def spriteX (b : Byte) : Nat := b.toNat % 64

/-- The draw position along the 32-pixel side: `Vy mod 32` (`43_display.md` R112). -/
def spriteY (b : Byte) : Nat := b.toNat % 32

/-- The key numbered by a register's value, or none for a number above 15 (`44_keypad_timers.md` R120). -/
def State.keyAt (s : State) (b : Byte) : Option Bool := s.key[b.toNat]?

/-- The least key pressed, as a register value, or none when all are released (`44_keypad_timers.md` R123). -/
def State.firstPressed (s : State) : Option Byte := (s.key.toList.findIdx? id).map (BitVec.ofNat 8)

end Sys2Proof.Machine
end

