-- ==== Sys2Proof/Machine/Alu.lean ====
section
/-! DEFINITION. Register load, arithmetic, logic, shift and random instructions (`41_alu.md`). All arithmetic is
unsigned and wraps modulo 256 (R92), which is `BitVec 8` arithmetic; operands are read from the state before, the
result is written, and the flag last (`10_state.md` R12). -/

namespace Sys2Proof.Machine

/-- `LD Vx,kk` (R80). -/
def execLdVxKk (x : RegIdx) (kk : Byte) (s : State) : Result := .next (s.setV x kk)

/-- `ADD Vx,kk` (R81): no flag. -/
def execAddVxKk (x : RegIdx) (kk : Byte) (s : State) : Result := .next (s.setV x (s.getV x + kk))

/-- `LD Vx,Vy` (R82). -/
def execLdVxVy (x y : RegIdx) (s : State) : Result := .next (s.setV x (s.getV y))

/-- `OR Vx,Vy` (R83): no flag. -/
def execOrVxVy (x y : RegIdx) (s : State) : Result := .next (s.setV x (s.getV x ||| s.getV y))

/-- `AND Vx,Vy` (R84): no flag. -/
def execAndVxVy (x y : RegIdx) (s : State) : Result := .next (s.setV x (s.getV x &&& s.getV y))

/-- `XOR Vx,Vy` (R85): no flag. -/
def execXorVxVy (x y : RegIdx) (s : State) : Result := .next (s.setV x (s.getV x ^^^ s.getV y))

/-- `ADD Vx,Vy` (R86). -/
def execAddVxVy (x y : RegIdx) (s : State) : Result :=
  .next (s.setResultFlag x (s.getV x + s.getV y) (carryFlag (s.getV x) (s.getV y)))

/-- `SUB Vx,Vy` (R87). -/
def execSubVxVy (x y : RegIdx) (s : State) : Result :=
  .next (s.setResultFlag x (s.getV x - s.getV y) (greaterFlag (s.getV x) (s.getV y)))

/-- `SHR Vx` (R88). -/
def execShrVx (x : RegIdx) (s : State) : Result :=
  .next (s.setResultFlag x (s.getV x >>> 1) (lowBitFlag (s.getV x)))

/-- `SUBN Vx,Vy` (R89). -/
def execSubnVxVy (x y : RegIdx) (s : State) : Result :=
  .next (s.setResultFlag x (s.getV y - s.getV x) (greaterFlag (s.getV y) (s.getV x)))

/-- `SHL Vx` (R90). -/
def execShlVx (x : RegIdx) (s : State) : Result :=
  .next (s.setResultFlag x (s.getV x <<< 1) (highBitFlag (s.getV x)))

/-- `RND Vx,kk` (R91): one draw is consumed. -/
def execRndVxKk (x : RegIdx) (kk : Byte) (s : State) : Result :=
  .next (s.drawn.setV x (s.randByte &&& kk))

end Sys2Proof.Machine
end

