-- ==== Sys2Proof/Machine/ControlFlow.lean ====
section
/-! DEFINITION. The control transfer instructions (`40_control_flow.md`). On entry `pc` is the fetch address plus 2
(`10_state.md` R14). -/

namespace Sys2Proof.Machine

/-- `RET` (R70). -/
def execRet (s : State) : Result :=
  match s.pop with
  | .empty f => s.raise f.cause f.info
  | .value w s' => .next (s'.setPc w)
  | .noSlot => .fault .stackPointerIllegal

/-- `JP nnn` (R71). -/
def execJpNnn (nnn : Addr12) (s : State) : Result := .next (s.setPc (addrWord nnn))

/-- `CALL nnn` (R72): the address pushed is the advanced `pc`. -/
def execCallNnn (nnn : Addr12) (s : State) : Result :=
  match s.push s.pc with
  | .error f => s.raise f.cause f.info
  | .ok s' => .next (s'.setPc (addrWord nnn))

/-- `SE Vx,kk` (R73). -/
def execSeVxKk (x : RegIdx) (kk : Byte) (s : State) : Result := .next (s.skipIf (s.getV x == kk))

/-- `SNE Vx,kk` (R74). -/
def execSneVxKk (x : RegIdx) (kk : Byte) (s : State) : Result := .next (s.skipIf (s.getV x != kk))

/-- `SE Vx,Vy` (R75). -/
def execSeVxVy (x y : RegIdx) (s : State) : Result := .next (s.skipIf (s.getV x == s.getV y))

/-- `SNE Vx,Vy` (R76). -/
def execSneVxVy (x y : RegIdx) (s : State) : Result := .next (s.skipIf (s.getV x != s.getV y))

/-- `JP V0,nnn` (R77). -/
def execJpV0Nnn (nnn : Addr12) (s : State) : Result := .next (s.setPc (s.v0Target nnn))

end Sys2Proof.Machine
end

