-- ==== Sys2Proof/Machine/Display.lean ====
section
/-! DEFINITION. The framebuffer operations and the display instructions (`43_display.md`). -/

namespace Sys2Proof.Machine

/-- Every pixel off. -/
def clearFb : Framebuffer := Vector.replicate 64 (Vector.replicate 32 false)

/-- `fb[px][py]`. -/
def pixel (fb : Framebuffer) (px : Fin 64) (py : Fin 32) : Bool := fb[px][py]

/-- `fb[px][py] <- fb[px][py] ^ 1`. -/
def togglePixel (fb : Framebuffer) (px : Fin 64) (py : Fin 32) : Framebuffer :=
  fb.set px (fb[px].set py (!fb[px][py]))

/-- The cell a sprite pixel lands on under each edge policy (R111): past the edge it is dropped (`clip`) or comes in
at the other side (`wrap`). -/
def landing : Config.DrawEdge → Nat → Nat → Option (Fin 64 × Fin 32)
  | .clip, px, py => if h : px < 64 ∧ py < 32 then some (⟨px, h.1⟩, ⟨py, h.2⟩) else none
  | .wrap, px, py => some (Fin.ofNat 64 px, Fin.ofNat 32 py)

/-- What `DRW` carries from pixel to pixel: the framebuffer so far and whether a pixel was hit. -/
structure Drawing where
  fb : Framebuffer
  hit : Bool
  deriving DecidableEq, Repr

/-- One set sprite bit drawn at (px, py): the prior state is tested, then toggled. -/
def drawBit (edge : Config.DrawEdge) (px py : Nat) (d : Drawing) : Drawing :=
  match landing edge px py with
  | none => d
  | some (cx, cy) => ⟨togglePixel d.fb cx cy, d.hit || pixel d.fb cx cy⟩

/-- The columns of a sprite row, left to right: column c is bit 7 - c (R113). -/
def spriteBit (row : Byte) (c : Nat) : Bool := row.getLsbD (7 - c)

/-- One sprite row at second coordinate `py`: columns 0 to 7. -/
def drawRow (edge : Config.DrawEdge) (xpos py : Nat) (row : Byte) (d : Drawing) : Drawing :=
  (List.range 8).foldl (fun d c => if spriteBit row c then drawBit edge (xpos + c) py d else d) d

/-- The rows of a sprite from second coordinate `py` down. -/
def drawRows (edge : Config.DrawEdge) (xpos : Nat) : Nat → List Byte → Drawing → Drawing
  | _, [], d => d
  | py, row :: rest, d => drawRows edge xpos (py + 1) rest (drawRow edge xpos py row d)

/-- A whole sprite drawn on a framebuffer (R111). -/
def drawSprite (edge : Config.DrawEdge) (xpos ypos : Nat) (rows : List Byte) (fb : Framebuffer) : Drawing :=
  drawRows edge xpos ypos rows ⟨fb, false⟩

/-- `DRW` under a given edge policy: all rows read, then drawn, then VF written (R111). -/
def State.drawWith (s : State) (edge : Config.DrawEdge) (x y : RegIdx) (n : Nibble) : Result :=
  match s.readRange s.base n.toNat with
  | .error f => s.raise f.cause f.info
  | .ok rows =>
    let d := drawSprite edge (spriteX (s.getV x)) (spriteY (s.getV y)) rows s.fb
    .next ((s.setFb d.fb).setV VF (flagByte d.hit))

/-- `CLS` (R110). -/
def execCls (s : State) : Result := .next (s.setFb clearFb)

/-- `DRW Vx,Vy,n` (R111), under the machine's edge policy. -/
def execDrwVxVyN (x y : RegIdx) (n : Nibble) (s : State) : Result := s.drawWith s.params.drawEdge x y n

end Sys2Proof.Machine
end

