-- ==== Sys2Proof/Machine/IndexMemory.lean ====
section
/-! DEFINITION. Index register and memory instructions (`42_index_memory.md`). None changes `I` while it accesses
memory; the effective addresses are `I` + k, unwrapped. -/

namespace Sys2Proof.Machine

/-- `LD I,nnn` (R100). -/
def execLdINnn (nnn : Addr12) (s : State) : Result := .next (s.setIndex (addrWord nnn))

/-- `ADD I,Vx` (R101): wraps modulo 65536, no flag. -/
def execAddIVx (x : RegIdx) (s : State) : Result := .next (s.setIndex (s.index + byteWord (s.getV x)))

/-- `LD F,Vx` (R102): masks, never faults. -/
def execLdFVx (x : RegIdx) (s : State) : Result := .next (s.setIndex (s.glyphAddr (s.getV x)))

/-- `LD B,Vx` (R103). -/
def execLdBVx (x : RegIdx) (s : State) : Result :=
  match s.writeRange s.base (decimalDigits (s.getV x)) with
  | .error f => s.raise f.cause f.info
  | .ok s' => .next s'

/-- `LD [I],Vx` (R104). -/
def execLdMemVx (x : RegIdx) (s : State) : Result :=
  match s.writeRange s.base (s.regsUpTo x) with
  | .error f => s.raise f.cause f.info
  | .ok s' => .next s'

/-- `LD Vx,[I]` (R105). -/
def execLdVxMem (x : RegIdx) (s : State) : Result :=
  match s.readRange s.base (x.val + 1) with
  | .error f => s.raise f.cause f.info
  | .ok bytes => .next (s.setAllV (s.withRegs bytes))

end Sys2Proof.Machine
end

