-- ==== Sys2Proof/Machine/KeypadTimers.lean ====
section
/-! DEFINITION. Keypad and timer instructions (`44_keypad_timers.md`). `key` is the snapshot of the cycle
(`10_state.md` R20); the tick of the same cycle follows every one of them (R17). -/

namespace Sys2Proof.Machine

/-- `SKP Vx` (R120): a key number above 15 is a fault. -/
def execSkpVx (x : RegIdx) (s : State) : Result :=
  match s.keyAt (s.getV x) with
  | none => s.raise .keyIndexOutOfRange (byteWord (s.getV x))
  | some pressed => .next (s.skipIf pressed)

/-- `SKNP Vx` (R121). -/
def execSknpVx (x : RegIdx) (s : State) : Result :=
  match s.keyAt (s.getV x) with
  | none => s.raise .keyIndexOutOfRange (byteWord (s.getV x))
  | some pressed => .next (s.skipIf (!pressed))

/-- `LD Vx,DT` (R122): the value before this cycle's tick. -/
def execLdVxDt (x : RegIdx) (s : State) : Result := .next (s.setV x s.dt)

/-- `LD Vx,K` (R123): with no key pressed, back to this instruction's own address. -/
def execLdVxK (x : RegIdx) (s : State) : Result :=
  match s.firstPressed with
  | none => .next (s.setPc (s.pc - 2))
  | some k => .next (s.setV x k)

/-- `LD DT,Vx` (R124). -/
def execLdDtVx (x : RegIdx) (s : State) : Result := .next (s.setDt (s.getV x))

/-- `LD ST,Vx` (R125). -/
def execLdStVx (x : RegIdx) (s : State) : Result := .next (s.setSt (s.getV x))

end Sys2Proof.Machine
end

