-- ==== Sys2Proof/Machine/Nop.lean ====
section
/-! DEFINITION. The no-op of the unmapped selectors (`45_nop.md` R130): the operation changes nothing; the cycle
around it advances `pc` and ticks. -/

namespace Sys2Proof.Machine

/-- Nothing. -/
def noOp (s : State) : Result := .next s

/-- `NOP` of group 0. -/
def execNopGroup0 (s : State) : Result := noOp s

/-- `NOP` of group 8. -/
def execNopGroup8 (s : State) : Result := noOp s

/-- `NOP` of group E. -/
def execNopGroupE (s : State) : Result := noOp s

/-- `NOP` of group F. -/
def execNopGroupF (s : State) : Result := noOp s

end Sys2Proof.Machine
end

