-- ==== Sys2Proof/Machine/Cycle.lean ====
section
/-! DEFINITION. The cycle (`10_state.md` R25, R26), the only step the core takes: snapshot the keys, fetch, advance
`pc`, decode, execute, and then tick, or, after a fault, discard. -/

namespace Sys2Proof.Machine

/-- The core is halted: the fault latch is set (`10_state.md` R22). -/
def State.halted (s : State) : Bool := s.fault.isSome

/-- `key[0..15] <- keys_in` (R20, R25): the host's next snapshot; where it presents none, the latches keep what the
host last wrote (log entry 4). -/
def State.snapshot (s : State) : State :=
  { s with key := s.keysIn.headD s.key, keysIn := s.keysIn.tail }

/-- Fetch: `ir <- MemRead(pc, 2)`, then `pc <- pc + 2` (R14, R18, R25). -/
def State.fetch (s : State) : Except FaultRecord State :=
  match s.readWord s.pc.toNat with
  | .error f => .error f
  | .ok w => .ok ((s.setIr w).setPc (s.pc + 2))

/-- The end of a cycle that began in `s0` (its keys taken) and whose instruction answered `r`: tick when no fault was
raised (R17); otherwise nothing the cycle wrote is kept, there is no tick, and the latch holds the record (R26). -/
def settle (s0 : State) (r : Result) : Result :=
  match r with
  | .next t =>
    match t.fault with
    | none => .next t.tick
    | some f => .next (s0.latch f)
  | .fault e => .fault e
  | .refused e => .refused e

/-- Fetch, decode, execute and settle, from a state whose keys are taken. -/
def runInstruction (s0 : State) : Result :=
  match s0.fetch with
  | .error f => s0.raise f.cause f.info
  | .ok s1 => settle s0 (exec (decode s1.ir) s1)

/-- One cycle (R25). A halted core changes nothing, and takes no snapshot. -/
def cycle (s : State) : Result := if s.halted then .next s else runInstruction s.snapshot

/-- Where the next instruction is fetched: `pc`, or the load address when nothing can be fetched at `pc`. -/
def State.fetchPlace (s : State) : Word :=
  if s.pc.toNat + 2 ≤ Config.memSize then s.pc else BitVec.ofNat 16 s.params.loadAddr

/-- The word stored at the fetch place, big-endian, the latch clear, so that the very next cycle runs it. -/
def State.placeWord (s : State) (w : Word) : State :=
  { s.setBytes s.fetchPlace.toNat [highByte w, lowByte w] with
    pc := s.fetchPlace
    fault := none }

end Sys2Proof.Machine
end

