-- ==== Sys2Proof/Machine/Step.lean ====
section
/-! DEFINITION. One step of the machine is one cycle (`10_state.md` R25), and where the step fetches. -/

namespace Sys2Proof.Machine

/-- One step: one cycle. A fault of the spec is a next state whose latch is set. -/
def step (s : State) : Host.Outcome State Fault Refusal := cycle s

/-- The state with the instruction of bits `w` (the first `nbits` of them) stored where the next step fetches, so
that it runs exactly it. It stands for the program load (log entry 8). -/
def State.withFetchWord (s : State) (nbits w : Nat) : State :=
  s.placeWord (BitVec.ofNat 16 (w % 2 ^ nbits))

end Sys2Proof.Machine
end

