-- ==== Sys2Proof/Laws/Decode.lean ====
section
/-! SUPPORT. The fields of an encoded word are the fields it was encoded from. -/

namespace Sys2Proof

/-! ## The bits of each format -/

theorem getLsbD_formatNnn (g : Nibble) (nnn : Addr12) (i : Nat) :
    (formatNnn g nnn).getLsbD i = if i < 12 then nnn.getLsbD i else g.getLsbD (i - 12) :=
  (BitVec.getLsbD_append (x := g) (y := nnn) (i := i)).trans (by by_cases h : i < 12 <;> simp [h])

theorem getLsbD_formatXkk (g : Nibble) (x : RegIdx) (kk : Byte) (i : Nat) :
    (formatXkk g x kk).getLsbD i =
      if i < 8 then kk.getLsbD i else if i < 12 then (regBits x).getLsbD (i - 8) else g.getLsbD (i - 12) := by
  refine (BitVec.getLsbD_append (x := g ++ regBits x) (y := kk) (i := i)).trans ?_
  rw [BitVec.getLsbD_append]
  by_cases h : i < 8
  · simp [h]
  · have e : (i - 8 < 4) = (i < 12) := by simp only [eq_iff_iff]; omega
    have e' : i - 8 - 4 = i - 12 := by omega
    simp [h, e, e']

theorem getLsbD_formatXyn (g : Nibble) (x y : RegIdx) (n : Nibble) (i : Nat) :
    (formatXyn g x y n).getLsbD i =
      if i < 4 then n.getLsbD i else if i < 8 then (regBits y).getLsbD (i - 4)
      else if i < 12 then (regBits x).getLsbD (i - 8) else g.getLsbD (i - 12) := by
  refine (BitVec.getLsbD_append (x := g ++ regBits x ++ regBits y) (y := n) (i := i)).trans ?_
  rw [BitVec.getLsbD_append, BitVec.getLsbD_append]
  by_cases h : i < 4
  · simp [h]
  · have e1 : (i - 4 < 4) = (i < 8) := by simp only [eq_iff_iff]; omega
    have e3 : i - 4 - 4 = i - 8 := by omega
    have e4 : i - 8 - 4 = i - 12 := by omega
    have e5 : (i - 8 < 4) = (i < 12) := by simp only [eq_iff_iff]; omega
    simp [h, e1, e3, e4, e5]

/-! ## The fields of each format -/

@[simp] theorem toFin_regBits (x : RegIdx) : (regBits x).toFin = x := rfl

@[simp] theorem fieldG_formatNnn (g : Nibble) (nnn : Addr12) : fieldG (formatNnn g nnn) = g := by
  ext i hi
  simp [fieldG, getLsbD_formatNnn, BitVec.getLsbD_eq_getElem hi]

@[simp] theorem fieldNnn_formatNnn (g : Nibble) (nnn : Addr12) : fieldNnn (formatNnn g nnn) = nnn := by
  ext i hi
  simp [fieldNnn, getLsbD_formatNnn, hi]

theorem fieldN_formatNnn (g : Nibble) (nnn : Addr12) : fieldN (formatNnn g nnn) = nnn.extractLsb' 0 4 := by
  ext i hi
  simp [fieldN, getLsbD_formatNnn, show i < 12 by omega]

theorem fieldKk_formatNnn (g : Nibble) (nnn : Addr12) : fieldKk (formatNnn g nnn) = nnn.extractLsb' 0 8 := by
  ext i hi
  simp [fieldKk, getLsbD_formatNnn, show i < 12 by omega]

@[simp] theorem fieldG_formatXkk (g : Nibble) (x : RegIdx) (kk : Byte) : fieldG (formatXkk g x kk) = g := by
  ext i hi
  simp [fieldG, getLsbD_formatXkk, show ¬ 12 + i < 8 by omega, BitVec.getLsbD_eq_getElem hi]

@[simp] theorem fieldKk_formatXkk (g : Nibble) (x : RegIdx) (kk : Byte) : fieldKk (formatXkk g x kk) = kk := by
  ext i hi
  simp [fieldKk, getLsbD_formatXkk, hi]

@[simp] theorem fieldX_formatXkk (g : Nibble) (x : RegIdx) (kk : Byte) : fieldX (formatXkk g x kk) = x := by
  have : (formatXkk g x kk).extractLsb' 8 4 = regBits x := by
    ext i hi
    simp [getLsbD_formatXkk, show 8 + i < 12 by omega, show ¬ 8 + i < 8 by omega, BitVec.getLsbD_eq_getElem hi]
  rw [fieldX, this, toFin_regBits]

theorem fieldN_formatXkk (g : Nibble) (x : RegIdx) (kk : Byte) : fieldN (formatXkk g x kk) = kk.extractLsb' 0 4 := by
  ext i hi
  simp [fieldN, getLsbD_formatXkk, show i < 8 by omega]

@[simp] theorem fieldG_formatXyn (g : Nibble) (x y : RegIdx) (n : Nibble) : fieldG (formatXyn g x y n) = g := by
  ext i hi
  simp [fieldG, getLsbD_formatXyn, show ¬ 12 + i < 8 by omega, show ¬ 12 + i < 4 by omega, BitVec.getLsbD_eq_getElem hi]

@[simp] theorem fieldN_formatXyn (g : Nibble) (x y : RegIdx) (n : Nibble) : fieldN (formatXyn g x y n) = n := by
  ext i hi
  simp [fieldN, getLsbD_formatXyn, hi]

@[simp] theorem fieldX_formatXyn (g : Nibble) (x y : RegIdx) (n : Nibble) : fieldX (formatXyn g x y n) = x := by
  have : (formatXyn g x y n).extractLsb' 8 4 = regBits x := by
    ext i hi
    simp [getLsbD_formatXyn, show 8 + i < 12 by omega, show ¬ 8 + i < 8 by omega, show ¬ 8 + i < 4 by omega, BitVec.getLsbD_eq_getElem hi]
  rw [fieldX, this, toFin_regBits]

@[simp] theorem fieldY_formatXyn (g : Nibble) (x y : RegIdx) (n : Nibble) : fieldY (formatXyn g x y n) = y := by
  have : (formatXyn g x y n).extractLsb' 4 4 = regBits y := by
    ext i hi
    simp [getLsbD_formatXyn, show 4 + i < 8 by omega, BitVec.getLsbD_eq_getElem hi]
  rw [fieldY, this, toFin_regBits]

/-! ## The fields that the fixed bits of a word determine -/

theorem getLsbD_of_mask {w mask pattern : Word} (h : w &&& mask = pattern) {i : Nat} (hi : mask.getLsbD i = true) :
    w.getLsbD i = pattern.getLsbD i := by
  rw [← h, BitVec.getLsbD_and, hi, Bool.and_true]

theorem fieldG_of_mask {w mask pattern : Word} (h : w &&& mask = pattern)
    (hm : ∀ i : Fin 4, mask.getLsbD (12 + i.val) = true) : fieldG w = fieldG pattern := by
  ext i hi
  simp only [fieldG, BitVec.getElem_extractLsb']
  exact getLsbD_of_mask h (hm ⟨i, hi⟩)

theorem fieldN_of_mask {w mask pattern : Word} (h : w &&& mask = pattern)
    (hm : ∀ i : Fin 4, mask.getLsbD (0 + i.val) = true) : fieldN w = fieldN pattern := by
  ext i hi
  simp only [fieldN, BitVec.getElem_extractLsb']
  exact getLsbD_of_mask h (hm ⟨i, hi⟩)

theorem fieldKk_of_mask {w mask pattern : Word} (h : w &&& mask = pattern)
    (hm : ∀ i : Fin 8, mask.getLsbD (0 + i.val) = true) : fieldKk w = fieldKk pattern := by
  ext i hi
  simp only [fieldKk, BitVec.getElem_extractLsb']
  exact getLsbD_of_mask h (hm ⟨i, hi⟩)

/-! ## The words of the no-ops -/

theorem toNat_lowNibble (low : Addr12) : (low.extractLsb' 0 4).toNat = low.toNat % 16 := by
  simp [BitVec.extractLsb'_toNat]

theorem toNat_lowByte (low : Addr12) : (low.extractLsb' 0 8).toNat = low.toNat % 256 := by
  simp [BitVec.extractLsb'_toNat]

theorem decode_nopGroup0 {low : Addr12} (h : unmapped0 low = true) :
    decode (formatNnn 0x0#4 low) = .nopGroup0 low := by
  rw [unmapped0, ← toNat_lowNibble] at h
  simp only [decode, fieldG_formatNnn, decodeGroup0, fieldN_formatNnn, fieldNnn_formatNnn]
  generalize low.extractLsb' 0 4 = n at h
  split <;> simp_all

theorem decode_nopGroup8 {low : Addr12} (h : unmapped8 low = true) :
    decode (formatNnn 0x8#4 low) = .nopGroup8 low := by
  rw [unmapped8, ← toNat_lowNibble] at h
  simp only [decode, fieldG_formatNnn, decodeGroup8, fieldN_formatNnn, fieldNnn_formatNnn]
  generalize low.extractLsb' 0 4 = n at h
  split <;> simp_all

theorem decode_nopGroupE {low : Addr12} (h : unmappedE low = true) :
    decode (formatNnn 0xE#4 low) = .nopGroupE low := by
  rw [unmappedE, ← toNat_lowNibble] at h
  simp only [decode, fieldG_formatNnn, decodeGroupE, fieldN_formatNnn, fieldNnn_formatNnn]
  generalize low.extractLsb' 0 4 = n at h
  split <;> simp_all

theorem decode_nopGroupF {low : Addr12} (h : unmappedF low = true) :
    decode (formatNnn 0xF#4 low) = .nopGroupF low := by
  rw [unmappedF, ← toNat_lowByte] at h
  simp only [decode, fieldG_formatNnn, decodeGroupF, fieldKk_formatNnn, fieldNnn_formatNnn]
  generalize low.extractLsb' 0 8 = n at h
  split <;> (try split) <;> simp_all

end Sys2Proof
end

