-- ==== Sys2Proof/Laws/PerInstr.lean ====
section
/-! SUPPORT. The family RoundTrip: what encoding an instruction and decoding its word gives, one lemma per
constructor. -/

namespace Sys2Proof.Laws.RoundTrip

/-- A well-formed instruction is what its word decodes to. -/
def Statement (i : Instr) : Prop := i.wellFormed = true → decode (encode i) = i

theorem cls : Statement .cls := fun _ => by decide

theorem ret : Statement .ret := fun _ => by decide

theorem jpNnn (nnn : Addr12) : Statement (.jpNnn nnn) := by
  intro _
  simp [encode, decode]

theorem callNnn (nnn : Addr12) : Statement (.callNnn nnn) := by
  intro _
  simp [encode, decode]

theorem seVxKk (x : RegIdx) (kk : Byte) : Statement (.seVxKk x kk) := by
  intro _
  simp [encode, decode]

theorem sneVxKk (x : RegIdx) (kk : Byte) : Statement (.sneVxKk x kk) := by
  intro _
  simp [encode, decode]

theorem seVxVy (x y : RegIdx) : Statement (.seVxVy x y) := by
  intro _
  simp [encode, decode]

theorem ldVxKk (x : RegIdx) (kk : Byte) : Statement (.ldVxKk x kk) := by
  intro _
  simp [encode, decode]

theorem addVxKk (x : RegIdx) (kk : Byte) : Statement (.addVxKk x kk) := by
  intro _
  simp [encode, decode]

theorem ldVxVy (x y : RegIdx) : Statement (.ldVxVy x y) := by
  intro _
  simp [encode, decode, decodeGroup8]

theorem orVxVy (x y : RegIdx) : Statement (.orVxVy x y) := by
  intro _
  simp [encode, decode, decodeGroup8]

theorem andVxVy (x y : RegIdx) : Statement (.andVxVy x y) := by
  intro _
  simp [encode, decode, decodeGroup8]

theorem xorVxVy (x y : RegIdx) : Statement (.xorVxVy x y) := by
  intro _
  simp [encode, decode, decodeGroup8]

theorem addVxVy (x y : RegIdx) : Statement (.addVxVy x y) := by
  intro _
  simp [encode, decode, decodeGroup8]

theorem subVxVy (x y : RegIdx) : Statement (.subVxVy x y) := by
  intro _
  simp [encode, decode, decodeGroup8]

theorem shrVx (x : RegIdx) : Statement (.shrVx x) := by
  intro _
  simp [encode, decode, decodeGroup8]

theorem subnVxVy (x y : RegIdx) : Statement (.subnVxVy x y) := by
  intro _
  simp [encode, decode, decodeGroup8]

theorem shlVx (x : RegIdx) : Statement (.shlVx x) := by
  intro _
  simp [encode, decode, decodeGroup8]

theorem sneVxVy (x y : RegIdx) : Statement (.sneVxVy x y) := by
  intro _
  simp [encode, decode]

theorem ldINnn (nnn : Addr12) : Statement (.ldINnn nnn) := by
  intro _
  simp [encode, decode]

theorem jpV0Nnn (nnn : Addr12) : Statement (.jpV0Nnn nnn) := by
  intro _
  simp [encode, decode]

theorem rndVxKk (x : RegIdx) (kk : Byte) : Statement (.rndVxKk x kk) := by
  intro _
  simp [encode, decode]

theorem drwVxVyN (x y : RegIdx) (n : Nibble) : Statement (.drwVxVyN x y n) := by
  intro _
  simp [encode, decode]

theorem skpVx (x : RegIdx) : Statement (.skpVx x) := by
  intro _
  simp [encode, decode, decodeGroupE, fieldN_formatXkk]

theorem sknpVx (x : RegIdx) : Statement (.sknpVx x) := by
  intro _
  simp [encode, decode, decodeGroupE, fieldN_formatXkk]

theorem ldVxDt (x : RegIdx) : Statement (.ldVxDt x) := by
  intro _
  simp [encode, decode, decodeGroupF]

theorem ldVxK (x : RegIdx) : Statement (.ldVxK x) := by
  intro _
  simp [encode, decode, decodeGroupF]

theorem ldDtVx (x : RegIdx) : Statement (.ldDtVx x) := by
  intro _
  simp [encode, decode, decodeGroupF]

theorem ldStVx (x : RegIdx) : Statement (.ldStVx x) := by
  intro _
  simp [encode, decode, decodeGroupF]

theorem addIVx (x : RegIdx) : Statement (.addIVx x) := by
  intro _
  simp [encode, decode, decodeGroupF]

theorem ldFVx (x : RegIdx) : Statement (.ldFVx x) := by
  intro _
  simp [encode, decode, decodeGroupF]

theorem ldBVx (x : RegIdx) : Statement (.ldBVx x) := by
  intro _
  simp [encode, decode, decodeGroupF]

theorem ldMemVx (x : RegIdx) : Statement (.ldMemVx x) := by
  intro _
  simp [encode, decode, decodeGroupF]

theorem ldVxMem (x : RegIdx) : Statement (.ldVxMem x) := by
  intro _
  simp [encode, decode, decodeGroupF]

theorem nopGroup0 (low : Addr12) : Statement (.nopGroup0 low) := by
  intro h
  simp only [Instr.wellFormed] at h
  exact decode_nopGroup0 h

theorem nopGroup8 (low : Addr12) : Statement (.nopGroup8 low) := by
  intro h
  simp only [Instr.wellFormed] at h
  exact decode_nopGroup8 h

theorem nopGroupE (low : Addr12) : Statement (.nopGroupE low) := by
  intro h
  simp only [Instr.wellFormed] at h
  exact decode_nopGroupE h

theorem nopGroupF (low : Addr12) : Statement (.nopGroupF low) := by
  intro h
  simp only [Instr.wellFormed] at h
  exact decode_nopGroupF h

end Sys2Proof.Laws.RoundTrip
end

