-- ==== Sys2Proof/Machine/HostPort.lean ====
section
/-! DEFINITION. The host interface (`70_reset_and_hazards.md` R160 to R164, R171, `60_exceptions.md` R150): what the
host may do and read between cycles. -/

namespace Sys2Proof.Machine

/-- `reset`, at any time between cycles (R160): every piece of state to its reset value, the fault latch and a loaded
program among them. The machine stays the one it was built as, the inputs the host has yet to present are the host's
and stay, and the random source is reseeded, so the free draws do not begin again (log entry 14). -/
def State.hostReset (s : State) : State :=
  { State.resetWith s.params with keysIn := s.keysIn, randIn := s.randIn, randDraws := s.randDraws + 1 }

/-- `mem[LOAD_ADDR + k] <- img[k]`, and nothing else (R161). -/
def State.loadImage (s : State) (img : List Byte) : State := s.setBytes s.params.loadAddr img

/-- Reset, then `load(img)`, on the core with the parameters `p`: what the host does before the first cycle (R161,
R163). An image that does not fit is refused (R162). There is no load at another time (R171). -/
def boot (p : Config.Params) (img : List Byte) : Result :=
  if img.length ≤ Config.memSize - p.loadAddr then .next ((State.resetWith p).loadImage img)
  else .refused (.imageTooLong img.length)

/-- `fb_out`: the framebuffer at a cycle boundary. -/
def State.fbOut (s : State) : Framebuffer := s.fb

/-- `sound_on`: the sound timer is not zero at a cycle boundary. -/
def State.soundOn (s : State) : Bool := s.st != 0

/-- The code of a cause (`60_exceptions.md` R141). -/
def Cause.code : Cause → Nat
  | .fetchOutOfRange => 1
  | .memReadOutOfRange => 2
  | .memWriteOutOfRange => 3
  | .stackOverflow => 4
  | .stackUnderflow => 5
  | .keyIndexOutOfRange => 6

/-- `fault_out`: the code and the info of the latched fault, none while it is clear. -/
def State.faultOut (s : State) : Option (Nat × Word) := s.fault.map fun f => (f.cause.code, f.info)

/-- A run has finished, in the sense that `70_reset_and_hazards.md` R170 suggests to models: the core is not halted and
the instruction at `pc` is `JP` to its own address. The core does not stop there: a step goes on (log entry 21). -/
def State.finished (s : State) : Bool :=
  match s.fault, s.readWord s.pc.toNat with
  | none, .ok w =>
    match decode w with
    | .jpNnn nnn => addrWord nnn == s.pc
    | _ => false
  | _, _ => false

end Sys2Proof.Machine
end

