-- ==== Sys2Proof/Safety.lean ====
section
/-! DEFINITION. What counts as a safe state and a safe run, and the terms in which the claims about the machine are
stated: what a cycle fetches, what an instruction leaves unchanged, which pixels a sprite covers. -/

namespace Sys2Proof.Machine

/-! ## Fault records and the invariant -/

/-- What `60_exceptions.md` R143 says the info of each cause can be. -/
def FaultRecord.legal (f : FaultRecord) : Prop :=
  match f.cause with
  | .fetchOutOfRange => 4095 ≤ f.info.toNat ∧ f.info.toNat ≤ 0x10FE
  | .memReadOutOfRange => 4096 ≤ f.info.toNat
  | .memWriteOutOfRange => 4096 ≤ f.info.toNat
  | .stackOverflow => f.info.toNat = 16
  | .stackUnderflow => f.info.toNat = 0
  | .keyIndexOutOfRange => 16 ≤ f.info.toNat ∧ f.info.toNat ≤ 255

/-- What holds of every state a run reaches. -/
structure StateInv (s : State) : Prop where
  /-- Memory keeps its canonical form, all of it inside the 4096 bytes (`20_memory.md` R30). -/
  memCanonical : s.memWf = true
  /-- `sp` is legal: 0 to 16 (`10_state.md` R15, R24). -/
  spLegal : s.sp.toNat ≤ 16
  /-- `pc` is at most 0x10FE (`10_state.md` R14, R24). -/
  pcBounded : s.pc.toNat ≤ 0x10FE
  /-- Every slot holds 0 or an address that a `CALL` pushed, at most 4096 (`40_control_flow.md` R70, R72). -/
  slotsBounded : ∀ k : Fin 16, s.stack[k].toNat ≤ 4096
  /-- A latched fault has the info its cause can have (`60_exceptions.md` R143). -/
  faultLegal : ∀ f, s.fault = some f → f.legal
  /-- The machine was built with parameters that the constraints of `00_scope.md` R5 allow. -/
  paramsLegal : s.params.legal

/-- A run of `n` cycles from `s` that raises no fault. -/
def SafeRun (n : Nat) (s : State) : Prop := ∃ t, Host.Core.run core n s = .next t ∧ t.fault = none

/-! ## What a cycle fetches -/

/-- The word at `pc`, the byte at the lower address first (`20_memory.md` R33). -/
def State.fetchedWord (s : State) : Word := s.byteAt s.pc.toNat ++ s.byteAt (s.pc.toNat + 1)

/-- The next cycle from `s` runs the instruction `i`: the core is not halted, both bytes at `pc` are in memory, and
they decode to `i`. -/
def State.Fetches (s : State) (i : Instr) : Prop :=
  s.fault = none ∧ s.pc.toNat ≤ 4094 ∧ decode s.fetchedWord = i

/-- The state in which that instruction executes: the host's next key snapshot taken (the latches unchanged if it
presents none), `ir` the word, `pc` advanced by 2 (`10_state.md` R25). -/
def State.entered (s : State) : State :=
  { s with
    key := s.keysIn.headD s.key
    keysIn := s.keysIn.tail
    ir := s.fetchedWord
    pc := s.pc + 2 }

/-- Every word that has these fixed bits decodes to this instruction, its operands taken from its fields. -/
def WordsDecodeTo (mask pattern : Word) (f : Word → Instr) : Prop := ∀ w : Word, w &&& mask = pattern → decode w = f w

/-! ## Frames: everything else is unchanged -/

/-- Every byte of memory reads as before. -/
def SameMemory (s t : State) : Prop := ∀ a, t.byteAt a = s.byteAt a

/-- Every V register but those named is unchanged. -/
def SameRegsBut (rs : List RegIdx) (s t : State) : Prop := ∀ r, r ∉ rs → t.getV r = s.getV r

/-- Nothing but V registers changed. -/
def OnlyV (s t : State) : Prop := t = { s with v := t.v } ∧ SameMemory s t

/-- Nothing but `pc` changed. -/
def OnlyPc (s t : State) : Prop := t = { s with pc := t.pc } ∧ SameMemory s t

/-- Nothing but `I` changed. -/
def OnlyIndex (s t : State) : Prop := t = { s with index := t.index } ∧ SameMemory s t

/-- Nothing but memory changed, and there nothing outside the `count` bytes from `a` up. -/
def OnlyMem (a count : Nat) (s t : State) : Prop :=
  t = { s with mem := t.mem } ∧ ∀ b, (b < a ∨ a + count ≤ b) → t.byteAt b = s.byteAt b

/-- The state with a fault latched and nothing else changed (`10_state.md` R26, `60_exceptions.md` R145). -/
def State.faulted (s : State) (c : Cause) (info : Word) : State := { s with fault := some ⟨c, info⟩ }

/-! ## Sprites (`43_display.md` R111 to R113) -/

/-- Column c of row r of a sprite drawn at (xpos, ypos) lands on the pixel (px, py) under the edge policy. -/
def LandsOn (edge : Config.DrawEdge) (xpos ypos r c : Nat) (px : Fin 64) (py : Fin 32) : Prop :=
  match edge with
  | .clip => xpos + c = px.val ∧ ypos + r = py.val
  | .wrap => (xpos + c) % 64 = px.val ∧ (ypos + r) % 32 = py.val

/-- The sprite of `n` rows at `I`, drawn at (Vx mod 64, Vy mod 32), has a set bit on the pixel: row r is the byte at
`I` + r, column c is its bit 7 - c. -/
def State.Covers (s : State) (edge : Config.DrawEdge) (x y : RegIdx) (n : Nat) (px : Fin 64) (py : Fin 32) : Prop :=
  ∃ r c, r < n ∧ c < 8 ∧ (s.byteAt (s.index.toNat + r)).getLsbD (7 - c) = true ∧
    LandsOn edge ((s.getV x).toNat % 64) ((s.getV y).toNat % 32) r c px py

end Sys2Proof.Machine
end

