-- ==== Sys2Proof/Certificates/Slice0/Obligations.lean ====
section
/-! DEFINITION. The statements about the machine, for the provers. Each docstring names the rule of spec/ it states
or, for one that rests on a choice of the model, the log entry. -/

open Sys2Proof Sys2Proof.Machine

/-! ## Reset and load -/

/-- `10_state.md` R27: every value the spec gives for reset, for every `LOAD_ADDR`, `FONT_BASE` and `FONT_DATA` that
`00_scope.md` R5 allows. (Of the random source the spec gives no value.) -/
def Obligations.ResetStateHoldsStatedValues : Prop :=
  ∀ (p : Config.Params) (s : State), p.legal → s = State.resetWith p →
    (∀ r : RegIdx, s.getV r = 0) ∧ s.index = 0 ∧ s.pc.toNat = p.loadAddr ∧ s.sp = 0 ∧ (∀ k : Fin 16, s.stack[k] = 0) ∧
    s.dt = 0 ∧ s.st = 0 ∧ s.ir = 0 ∧ (∀ px py, pixel s.fb px py = false) ∧
    (∀ k : Fin 80, s.byteAt (p.fontBase + k.val) = p.fontData[k]) ∧
    (∀ a, a < p.fontBase ∨ p.fontBase + 80 ≤ a → s.byteAt a = 0) ∧
    (∀ k : Fin 16, s.key[k] = false) ∧ s.fault = none ∧ s.params = p

/-- `00_scope.md` R5: the defaults (the font is the table of `20_memory.md` R37, glyph 0 first), the constraints, and that
a machine keeps the parameters it was built with: no cycle and no reset changes them. -/
def Obligations.ParametersAreFreeAndFixed : Prop :=
  State.reset = State.resetWith Config.defaults ∧ Config.defaults.loadAddr = 0x200 ∧
  Config.defaults.fontBase = 0x050 ∧ Config.defaults.drawEdge = .clip ∧ Config.defaults.legal ∧
  Config.defaults.fontData.toList =
    [0xF0, 0x90, 0x90, 0x90, 0xF0, 0x20, 0x60, 0x20, 0x20, 0x70, 0xF0, 0x10, 0xF0, 0x80, 0xF0] ++
    [0xF0, 0x10, 0xF0, 0x10, 0xF0, 0x90, 0x90, 0xF0, 0x10, 0x10, 0xF0, 0x80, 0xF0, 0x10, 0xF0] ++
    [0xF0, 0x80, 0xF0, 0x90, 0xF0, 0xF0, 0x10, 0x20, 0x40, 0x40, 0xF0, 0x90, 0xF0, 0x90, 0xF0] ++
    [0xF0, 0x90, 0xF0, 0x10, 0xF0, 0xF0, 0x90, 0xF0, 0x90, 0x90, 0xE0, 0x90, 0xE0, 0x90, 0xE0] ++
    [0xF0, 0x80, 0x80, 0x80, 0xF0, 0xE0, 0x90, 0x90, 0x90, 0xE0, 0xF0, 0x80, 0xF0, 0x80, 0xF0] ++
    [0xF0, 0x80, 0xF0, 0x80, 0x80] ∧
  (∀ p : Config.Params, p.legal ↔ p.fontBase + 80 ≤ p.loadAddr ∧ p.loadAddr ≤ 4094) ∧
  (∀ s t, step s = .next t → t.params = s.params) ∧ ∀ s : State, s.hostReset.params = s.params

/-- `70_reset_and_hazards.md` R161: the image, any bytes, is copied verbatim to the load address, where the first fetch
is, and nothing else changes; and, beside that rule, R162: an image that does not fit is refused. -/
def Obligations.BootCopiesImageVerbatim : Prop :=
  ∀ (p : Config.Params) (img : List Byte), p.legal →
    (img.length ≤ 4096 - p.loadAddr → ∃ t, boot p img = .next t ∧
      (∀ k (b : Byte), img[k]? = some b → t.byteAt (p.loadAddr + k) = b) ∧
      (∀ a, a < p.loadAddr ∨ p.loadAddr + img.length ≤ a → t.byteAt a = (State.resetWith p).byteAt a) ∧
      t.pc.toNat = p.loadAddr ∧ t = { State.resetWith p with mem := t.mem }) ∧
    (4096 - p.loadAddr < img.length → boot p img = .refused (.imageTooLong img.length))

/-! ## Decoding -/

/-- Decoding an encoded well-formed instruction gives it back, for every instruction and every operand. -/
def Obligations.DecodeOfEncodeIsIdentity : Prop := ∀ i : Instr, Laws.RoundTrip.Statement i

/-- What a word decodes to is well formed, and encodes to the word again but for the bits R56 and R57 call ignored. -/
def Obligations.EncodeOfDecodeKeepsSignificantBits : Prop :=
  ∀ w : Word, (decode w).wellFormed = true ∧
    encode (decode w) &&& significantBits (decode w) = w &&& significantBits (decode w)

/-- `30_encoding.md` R59: reading the opcode map row by row gives the decoder's instruction for every word, and no
word matches two of the rows 1 to 34. -/
def Obligations.DecoderAgreesWithOpcodeMap : Prop :=
  ∀ w : Word, mapDecode w = some (decode w) ∧ (definedRows.filter (·.hits w)).length ≤ 1

/-- Words written out from the encodings of R59, one or more of every family. -/
def Obligations.WrittenOutWordsDecode : Prop :=
  decode 0x00E0#16 = .cls ∧ decode 0x0000#16 = .cls ∧ decode 0x012E#16 = .ret ∧ decode 0x1204#16 = .jpNnn 0x204#12 ∧
  decode 0x512F#16 = .seVxVy 1 2 ∧ decode 0x6A2B#16 = .ldVxKk 10 0x2B#8 ∧ decode 0x8127#16 = .subnVxVy 1 2 ∧
  decode 0x81F6#16 = .shrVx 1 ∧ decode 0xA123#16 = .ldINnn 0x123#12 ∧ decode 0xD12F#16 = .drwVxVyN 1 2 0xF#4 ∧
  decode 0xE10E#16 = .skpVx 1 ∧ decode 0xE1A1#16 = .sknpVx 1 ∧ decode 0xF733#16 = .ldBVx 7 ∧
  decode 0xF265#16 = .ldVxMem 2 ∧ decode 0x8128#16 = .nopGroup8 0x128#12 ∧ decode 0xF175#16 = .nopGroupF 0x175#12

/-! ## The cycle -/

/-- `10_state.md` R25: a cycle that fetches `i` is `exec i` at the entered state (keys taken, `ir` the word, `pc` + 2),
followed by the tick, or, when a fault is latched, by the discard. -/
def Obligations.StepRunsFetchedInstruction : Prop :=
  ∀ s i, s.Fetches i →
    (∀ t, exec i s.entered = .next t → t.fault = none →
      step s = .next { t with dt := countDown t.dt, st := countDown t.st }) ∧
    (∀ t f, exec i s.entered = .next t → t.fault = some f →
      step s = .next { s with key := s.keysIn.headD s.key, keysIn := s.keysIn.tail, fault := some f }) ∧
    (∀ e, exec i s.entered = .fault e → step s = .fault e)

/-- Model's own (log entry 8): the word that `withFetchWord` places is the word the next step fetches, and where the
core could fetch already nothing but the latch and the two bytes at `pc` changes. -/
def Obligations.PlacedWordIsFetched : Prop :=
  ∀ (s : State) (w : Word), s.memWf = true → s.params.legal →
    (s.withFetchWord 16 w.toNat).Fetches (decode w) ∧ (s.withFetchWord 16 w.toNat).fetchedWord = w ∧
    (s.pc.toNat ≤ 4094 → OnlyMem s.pc.toNat 2 { s with fault := none } (s.withFetchWord 16 w.toNat))

/-- `10_state.md` R26: a faulting cycle leaves the state as it was before the cycle, but for the latch and the key
snapshot, which is an input. -/
def Obligations.FaultingCycleCommitsNothing : Prop :=
  ∀ s t f, s.fault = none → step s = .next t → t.fault = some f →
    t = { s with key := s.keysIn.headD s.key, keysIn := s.keysIn.tail, fault := some f }

/-- `60_exceptions.md` R146: a halted core stays as it is over any number of cycles, and reset clears the latch and
everything else, the inputs of the host apart. -/
def Obligations.HaltedCoreStaysAsItIs : Prop :=
  ∀ (s : State) f, s.fault = some f →
    (∀ n, Host.Core.run core n s = .next s) ∧ s.hostReset.fault = none ∧
    ∃ ks rs d, s.hostReset = { State.resetWith s.params with keysIn := ks, randIn := rs, randDraws := d }

/-- `10_state.md` R17: the tick. After N cycles that raise no fault and do not write the timer, it is max(0, T - N);
a faulting cycle does not tick. -/
def Obligations.TimersCountCycles : Prop :=
  (∀ n (s t : State), Host.Core.run core n s = .next t → t.fault = none →
    (∀ k u x, k < n → Host.Core.run core k s = .next u → ¬ u.Fetches (.ldDtVx x)) →
    t.dt.toNat = s.dt.toNat - n) ∧
  (∀ n (s t : State), Host.Core.run core n s = .next t → t.fault = none →
    (∀ k u x, k < n → Host.Core.run core k s = .next u → ¬ u.Fetches (.ldStVx x)) →
    t.st.toNat = s.st.toNat - n) ∧
  (∀ s t : State, step s = .next t → t.fault ≠ none → t.dt = s.dt ∧ t.st = s.st)

/-! ## Control transfer (`40_control_flow.md`) -/

/-- R70. -/
def Obligations.RetPopsReturnAddress : Prop :=
  WordsDecodeTo 0xF00F 0x000E (fun _ => .ret) ∧
  (∀ s, s.sp.toNat = 0 → exec .ret s = .next (s.faulted .stackUnderflow 0)) ∧
  (∀ s (k : Fin 16), s.sp.toNat = k.val + 1 →
    ∃ t, exec .ret s = .next t ∧ t.sp.toNat = k.val ∧ t.pc = s.stack[k] ∧
      t = { s with sp := t.sp, pc := t.pc } ∧ SameMemory s t)

/-- R71. -/
def Obligations.JpLoadsPc : Prop :=
  WordsDecodeTo 0xF000 0x1000 (fun w => .jpNnn (fieldNnn w)) ∧
  ∀ nnn s, ∃ t, exec (.jpNnn nnn) s = .next t ∧ t.pc.toNat = nnn.toNat ∧ OnlyPc s t

/-- R72: the address pushed is `pc` at execution, the fetch address plus 2. -/
def Obligations.CallPushesReturnAddress : Prop :=
  WordsDecodeTo 0xF000 0x2000 (fun w => .callNnn (fieldNnn w)) ∧
  (∀ nnn s, 16 ≤ s.sp.toNat →
    exec (.callNnn nnn) s = .next (s.faulted .stackOverflow (BitVec.ofNat 16 s.sp.toNat))) ∧
  (∀ nnn s (k : Fin 16), s.sp.toNat = k.val →
    ∃ t, exec (.callNnn nnn) s = .next t ∧ t.stack[k] = s.pc ∧ (∀ j : Fin 16, j ≠ k → t.stack[j] = s.stack[j]) ∧
      t.sp.toNat = k.val + 1 ∧ t.pc.toNat = nnn.toNat ∧
      t = { s with stack := t.stack, sp := t.sp, pc := t.pc } ∧ SameMemory s t)

/-- R73 and R74. -/
def Obligations.ByteSkipsCompareWithImmediate : Prop :=
  WordsDecodeTo 0xF000 0x3000 (fun w => .seVxKk (fieldX w) (fieldKk w)) ∧
  WordsDecodeTo 0xF000 0x4000 (fun w => .sneVxKk (fieldX w) (fieldKk w)) ∧
  (∀ x kk s, ∃ t, exec (.seVxKk x kk) s = .next t ∧
    (s.getV x = kk → t.pc = s.pc + 2) ∧ (s.getV x ≠ kk → t.pc = s.pc) ∧ OnlyPc s t) ∧
  (∀ x kk s, ∃ t, exec (.sneVxKk x kk) s = .next t ∧
    (s.getV x ≠ kk → t.pc = s.pc + 2) ∧ (s.getV x = kk → t.pc = s.pc) ∧ OnlyPc s t)

/-- R75 and R76. -/
def Obligations.RegisterSkipsCompareTwoRegisters : Prop :=
  WordsDecodeTo 0xF000 0x5000 (fun w => .seVxVy (fieldX w) (fieldY w)) ∧
  WordsDecodeTo 0xF000 0x9000 (fun w => .sneVxVy (fieldX w) (fieldY w)) ∧
  (∀ x y s, ∃ t, exec (.seVxVy x y) s = .next t ∧
    (s.getV x = s.getV y → t.pc = s.pc + 2) ∧ (s.getV x ≠ s.getV y → t.pc = s.pc) ∧ OnlyPc s t) ∧
  (∀ x y s, ∃ t, exec (.sneVxVy x y) s = .next t ∧
    (s.getV x ≠ s.getV y → t.pc = s.pc + 2) ∧ (s.getV x = s.getV y → t.pc = s.pc) ∧ OnlyPc s t)

/-- R77: the sum is not reduced. -/
def Obligations.JpV0AddsV0Unmasked : Prop :=
  WordsDecodeTo 0xF000 0xB000 (fun w => .jpV0Nnn (fieldNnn w)) ∧
  ∀ nnn s, ∃ t, exec (.jpV0Nnn nnn) s = .next t ∧ t.pc.toNat = (s.getV 0).toNat + nnn.toNat ∧ OnlyPc s t

/-- R70 and R72 together: `RET` after `CALL` resumes behind the call, whatever else the subroutine did. -/
def Obligations.RetUndoesCall : Prop :=
  ∀ nnn s, s.sp.toNat < 16 → ∃ t, exec (.callNnn nnn) s = .next t ∧
    ∀ u : State, u.sp = t.sp → u.stack = t.stack → ∃ r, exec .ret u = .next r ∧ r.pc = s.pc ∧ r.sp = s.sp

/-! ## Registers (`41_alu.md`) -/

/-- R80 and R81: no flag; VF changes only as the destination. -/
def Obligations.ImmediateLoadAndAdd : Prop :=
  WordsDecodeTo 0xF000 0x6000 (fun w => .ldVxKk (fieldX w) (fieldKk w)) ∧
  WordsDecodeTo 0xF000 0x7000 (fun w => .addVxKk (fieldX w) (fieldKk w)) ∧
  (∀ x kk s, ∃ t, exec (.ldVxKk x kk) s = .next t ∧ t.getV x = kk ∧ SameRegsBut [x] s t ∧ OnlyV s t) ∧
  (∀ x kk s, ∃ t, exec (.addVxKk x kk) s = .next t ∧
    (t.getV x).toNat = ((s.getV x).toNat + kk.toNat) % 256 ∧ SameRegsBut [x] s t ∧ OnlyV s t)

/-- R82 to R85: bit by bit; no flag. -/
def Obligations.CopyAndLogicCombineBitwise : Prop :=
  WordsDecodeTo 0xF00F 0x8000 (fun w => .ldVxVy (fieldX w) (fieldY w)) ∧
  WordsDecodeTo 0xF00F 0x8001 (fun w => .orVxVy (fieldX w) (fieldY w)) ∧
  WordsDecodeTo 0xF00F 0x8002 (fun w => .andVxVy (fieldX w) (fieldY w)) ∧
  WordsDecodeTo 0xF00F 0x8003 (fun w => .xorVxVy (fieldX w) (fieldY w)) ∧
  (∀ x y s, ∃ t, exec (.ldVxVy x y) s = .next t ∧ t.getV x = s.getV y ∧ SameRegsBut [x] s t ∧ OnlyV s t) ∧
  (∀ x y s, ∃ t, exec (.orVxVy x y) s = .next t ∧
    (∀ j, (t.getV x).getLsbD j = ((s.getV x).getLsbD j || (s.getV y).getLsbD j)) ∧
    SameRegsBut [x] s t ∧ OnlyV s t) ∧
  (∀ x y s, ∃ t, exec (.andVxVy x y) s = .next t ∧
    (∀ j, (t.getV x).getLsbD j = ((s.getV x).getLsbD j && (s.getV y).getLsbD j)) ∧
    SameRegsBut [x] s t ∧ OnlyV s t) ∧
  (∀ x y s, ∃ t, exec (.xorVxVy x y) s = .next t ∧
    (∀ j, (t.getV x).getLsbD j = ((s.getV x).getLsbD j ^^ (s.getV y).getLsbD j)) ∧
    SameRegsBut [x] s t ∧ OnlyV s t)

/-- R86: with x = 15, VF ends as the carry. -/
def Obligations.AddSetsCarry : Prop :=
  WordsDecodeTo 0xF00F 0x8004 (fun w => .addVxVy (fieldX w) (fieldY w)) ∧
  ∀ x y s, ∃ t, exec (.addVxVy x y) s = .next t ∧
    (x ≠ VF → (t.getV x).toNat = ((s.getV x).toNat + (s.getV y).toNat) % 256) ∧
    (255 < (s.getV x).toNat + (s.getV y).toNat → t.getV VF = 1) ∧
    ((s.getV x).toNat + (s.getV y).toNat ≤ 255 → t.getV VF = 0) ∧ SameRegsBut [x, VF] s t ∧ OnlyV s t

/-- R87 and R89: strict comparison; equal operands give result 0 and flag 0. -/
def Obligations.SubtractionsSetStrictFlag : Prop :=
  WordsDecodeTo 0xF00F 0x8005 (fun w => .subVxVy (fieldX w) (fieldY w)) ∧
  WordsDecodeTo 0xF00F 0x8007 (fun w => .subnVxVy (fieldX w) (fieldY w)) ∧
  (∀ x y s, ∃ t, exec (.subVxVy x y) s = .next t ∧
    (x ≠ VF → (t.getV x).toNat = ((s.getV x).toNat + 256 - (s.getV y).toNat) % 256) ∧
    ((s.getV y).toNat < (s.getV x).toNat → t.getV VF = 1) ∧
    ((s.getV x).toNat ≤ (s.getV y).toNat → t.getV VF = 0) ∧ SameRegsBut [x, VF] s t ∧ OnlyV s t) ∧
  (∀ x y s, ∃ t, exec (.subnVxVy x y) s = .next t ∧
    (x ≠ VF → (t.getV x).toNat = ((s.getV y).toNat + 256 - (s.getV x).toNat) % 256) ∧
    ((s.getV x).toNat < (s.getV y).toNat → t.getV VF = 1) ∧
    ((s.getV y).toNat ≤ (s.getV x).toNat → t.getV VF = 0) ∧ SameRegsBut [x, VF] s t ∧ OnlyV s t)

/-- R88 and R90: the bit shifted out goes to VF; the `y` field is ignored. -/
def Obligations.ShiftsMoveOneBitIntoFlag : Prop :=
  WordsDecodeTo 0xF00F 0x8006 (fun w => .shrVx (fieldX w)) ∧
  WordsDecodeTo 0xF00F 0x800E (fun w => .shlVx (fieldX w)) ∧
  (∀ x s, ∃ t, exec (.shrVx x) s = .next t ∧ (x ≠ VF → (t.getV x).toNat = (s.getV x).toNat / 2) ∧
    (t.getV VF).toNat = (s.getV x).toNat % 2 ∧ SameRegsBut [x, VF] s t ∧ OnlyV s t) ∧
  (∀ x s, ∃ t, exec (.shlVx x) s = .next t ∧ (x ≠ VF → (t.getV x).toNat = (s.getV x).toNat * 2 % 256) ∧
    (t.getV VF).toNat = (s.getV x).toNat / 128 ∧ SameRegsBut [x, VF] s t ∧ OnlyV s t)

/-- R91: some byte, masked; one draw consumed. All a proof may rely on is the mask. -/
def Obligations.RndMasksSomeByte : Prop :=
  WordsDecodeTo 0xF000 0xC000 (fun w => .rndVxKk (fieldX w) (fieldKk w)) ∧
  ∀ x kk s, ∃ t, exec (.rndVxKk x kk) s = .next t ∧ (∃ r : Byte, t.getV x = r &&& kk) ∧
    (∀ j, kk.getLsbD j = false → (t.getV x).getLsbD j = false) ∧ SameRegsBut [x] s t ∧
    t.randDraws = s.randDraws + 1 ∧ SameMemory s t ∧
    t = { s with v := t.v, randIn := t.randIn, randDraws := t.randDraws }

/-- Model's own form of `10_state.md` R21 (log entry 5): the host can make the byte drawn any byte at all, and no
instruction but `RND` depends on the random source: neither on the bytes presented nor on the count of draws, which
picks the free value. -/
def Obligations.RandomByteTakesAnyValue : Prop :=
  (∀ x kk (s : State) (r : Byte) rest, ∃ t, exec (.rndVxKk x kk) { s with randIn := r :: rest } = .next t ∧
    t.getV x = r &&& kk ∧ t.randIn = rest) ∧
  (∀ i (s : State) l d t, (∀ x kk, i ≠ .rndVxKk x kk) → exec i s = .next t →
    exec i { s with randIn := l, randDraws := d } = .next { t with randIn := l, randDraws := d })

/-! ## Index register and memory (`42_index_memory.md`) -/

/-- R100 to R102; the font base is one that `00_scope.md` R5 allows. -/
def Obligations.IndexLoadsAndAdds : Prop :=
  WordsDecodeTo 0xF000 0xA000 (fun w => .ldINnn (fieldNnn w)) ∧
  WordsDecodeTo 0xF0FF 0xF01E (fun w => .addIVx (fieldX w)) ∧
  WordsDecodeTo 0xF0FF 0xF029 (fun w => .ldFVx (fieldX w)) ∧
  (∀ nnn s, ∃ t, exec (.ldINnn nnn) s = .next t ∧ t.index.toNat = nnn.toNat ∧ OnlyIndex s t) ∧
  (∀ x s, ∃ t, exec (.addIVx x) s = .next t ∧
    t.index.toNat = (s.index.toNat + (s.getV x).toNat) % 65536 ∧ OnlyIndex s t) ∧
  (∀ x s, s.params.legal → ∃ t, exec (.ldFVx x) s = .next t ∧
    t.index.toNat = s.params.fontBase + 5 * ((s.getV x).toNat % 16) ∧ OnlyIndex s t)

/-- R103: hundreds, tens, ones; or the fault, with nothing written. The address stored to is `State.base`. -/
def Obligations.BcdStoresThreeDigits : Prop :=
  WordsDecodeTo 0xF0FF 0xF033 (fun w => .ldBVx (fieldX w)) ∧
  (∀ x s, s.memWf = true → s.base + 2 ≤ 4095 → ∃ t, exec (.ldBVx x) s = .next t ∧
    (t.byteAt s.base).toNat = (s.getV x).toNat / 100 ∧
    (t.byteAt (s.base + 1)).toNat = (s.getV x).toNat / 10 % 10 ∧
    (t.byteAt (s.base + 2)).toNat = (s.getV x).toNat % 10 ∧ OnlyMem s.base 3 s t) ∧
  (∀ x s, 4095 < s.base + 2 →
    exec (.ldBVx x) s = .next (s.faulted .memWriteOutOfRange (BitVec.ofNat 16 (max s.base 4096))))

/-- R104: V0 to Vx in ascending order; or the fault, with nothing written. -/
def Obligations.StoreRegistersUpToVx : Prop :=
  WordsDecodeTo 0xF0FF 0xF055 (fun w => .ldMemVx (fieldX w)) ∧
  (∀ x s, s.memWf = true → s.base + x.val ≤ 4095 → ∃ t, exec (.ldMemVx x) s = .next t ∧
    (∀ k : RegIdx, k ≤ x → t.byteAt (s.base + k.val) = s.getV k) ∧ OnlyMem s.base (x.val + 1) s t) ∧
  (∀ x s, 4095 < s.base + x.val →
    exec (.ldMemVx x) s = .next (s.faulted .memWriteOutOfRange (BitVec.ofNat 16 (max s.base 4096))))

/-- R105: the registers above Vx, and `I`, unchanged; or the fault, with no register written. -/
def Obligations.LoadRegistersUpToVx : Prop :=
  WordsDecodeTo 0xF0FF 0xF065 (fun w => .ldVxMem (fieldX w)) ∧
  (∀ x s, s.base + x.val ≤ 4095 → ∃ t, exec (.ldVxMem x) s = .next t ∧
    (∀ k : RegIdx, k ≤ x → t.getV k = s.byteAt (s.base + k.val)) ∧
    (∀ k : RegIdx, x < k → t.getV k = s.getV k) ∧ OnlyV s t) ∧
  (∀ x s, 4095 < s.base + x.val →
    exec (.ldVxMem x) s = .next (s.faulted .memReadOutOfRange (BitVec.ofNat 16 (max s.base 4096))))

/-- The round trip of R105 (`95_test_vectors.md` E2.8): storing V0 to Vx and loading them into any register block
gives the original values back. -/
def Obligations.StoreThenLoadRestoresRegisters : Prop :=
  ∀ x s (v : Vector Byte 16), s.memWf = true → s.base + x.val ≤ 4095 →
    ∃ t u, exec (.ldMemVx x) s = .next t ∧ exec (.ldVxMem x) { t with v := v } = .next u ∧
      (∀ k : RegIdx, k ≤ x → u.getV k = s.getV k) ∧ (∀ k : RegIdx, x < k → u.getV k = v[k])

/-- `20_memory.md` R33, R42: bytes that `LD [I],Vx` stores are what a later fetch there reads, V0 the high byte. -/
def Obligations.StoredBytesAreFetchedBigEndian : Prop :=
  ∀ x s, s.memWf = true → 1 ≤ x.val → s.base + x.val ≤ 4095 →
    ∃ t, exec (.ldMemVx x) s = .next t ∧ ({ t with pc := s.index } : State).fetchedWord = s.getV 0 ++ s.getV 1

/-! ## Display (`43_display.md`) -/

/-- R110. -/
def Obligations.ClsTurnsEveryPixelOff : Prop :=
  WordsDecodeTo 0xF00F 0x0000 (fun _ => .cls) ∧
  ∀ s, ∃ t, exec .cls s = .next t ∧ (∀ px py, pixel t.fb px py = false) ∧ t = { s with fb := t.fb } ∧ SameMemory s t

/-- R111: under each edge policy, exactly the pixels the sprite covers are toggled, VF is 1 exactly when one of them
was on, and a row out of memory faults with nothing drawn; `DRW` is that under the policy the machine was built with. -/
def Obligations.DrwTogglesCoveredPixels : Prop :=
  WordsDecodeTo 0xF000 0xD000 (fun w => .drwVxVyN (fieldX w) (fieldY w) (fieldN w)) ∧
  (∀ x y n s, exec (.drwVxVyN x y n) s = s.drawWith s.params.drawEdge x y n) ∧
  (∀ edge x y (n : Nibble) (s : State), (n.toNat = 0 ∨ s.base + n.toNat - 1 ≤ 4095) →
    ∃ t, s.drawWith edge x y n = .next t ∧
      (∀ px py, s.Covers edge x y n.toNat px py → pixel t.fb px py = !pixel s.fb px py) ∧
      (∀ px py, ¬ s.Covers edge x y n.toNat px py → pixel t.fb px py = pixel s.fb px py) ∧
      ((∃ px py, s.Covers edge x y n.toNat px py ∧ pixel s.fb px py = true) → t.getV VF = 1) ∧
      ((∀ px py, s.Covers edge x y n.toNat px py → pixel s.fb px py = false) → t.getV VF = 0) ∧
      SameRegsBut [VF] s t ∧ t = { s with fb := t.fb, v := t.v } ∧ SameMemory s t) ∧
  (∀ edge x y (n : Nibble) (s : State), n.toNat ≠ 0 → 4095 < s.base + n.toNat - 1 →
    s.drawWith edge x y n = .next (s.faulted .memReadOutOfRange (BitVec.ofNat 16 (max s.base 4096))))

/-- R111, its property (`95_test_vectors.md` E2.5): `DRW` completes, and drawing the same sprite at the same place a
second time restores every pixel, whatever was lit before; and where the sprite fell on pixels that were off, the second
drawing sets VF to 1 exactly when the sprite covers a pixel. -/
def Obligations.DrawingTwiceRestoresPixels : Prop :=
  ∀ x y (n : Nibble) (s : State), (n.toNat = 0 ∨ s.base + n.toNat - 1 ≤ 4095) →
    ∃ t, exec (.drwVxVyN x y n) s = .next t ∧
      ((t.getV x).toNat % 64 = (s.getV x).toNat % 64 → (t.getV y).toNat % 32 = (s.getV y).toNat % 32 →
        ∃ u, exec (.drwVxVyN x y n) t = .next u ∧ u.fb = s.fb ∧
          ((∀ px py, s.Covers s.params.drawEdge x y n.toNat px py → pixel s.fb px py = false) →
            (u.getV VF = 1 ↔ ∃ px py, s.Covers s.params.drawEdge x y n.toNat px py)))

/-! ## Keypad and timers (`44_keypad_timers.md`) -/

/-- R120 and R121. -/
def Obligations.KeySkipsTestTheSnapshot : Prop :=
  WordsDecodeTo 0xF00F 0xE00E (fun w => .skpVx (fieldX w)) ∧
  WordsDecodeTo 0xF00F 0xE001 (fun w => .sknpVx (fieldX w)) ∧
  (∀ x s (k : Fin 16), (s.getV x).toNat = k.val → ∃ t, exec (.skpVx x) s = .next t ∧
    (s.key[k] = true → t.pc = s.pc + 2) ∧ (s.key[k] = false → t.pc = s.pc) ∧ OnlyPc s t) ∧
  (∀ x s (k : Fin 16), (s.getV x).toNat = k.val → ∃ t, exec (.sknpVx x) s = .next t ∧
    (s.key[k] = false → t.pc = s.pc + 2) ∧ (s.key[k] = true → t.pc = s.pc) ∧ OnlyPc s t) ∧
  (∀ x s, 15 < (s.getV x).toNat →
    exec (.skpVx x) s = .next (s.faulted .keyIndexOutOfRange (BitVec.ofNat 16 (s.getV x).toNat)) ∧
    exec (.sknpVx x) s = .next (s.faulted .keyIndexOutOfRange (BitVec.ofNat 16 (s.getV x).toNat)))

/-- R122 (with the cycle around it: the value read is the one before the tick), R124 and R125. -/
def Obligations.TimerMoves : Prop :=
  WordsDecodeTo 0xF0FF 0xF007 (fun w => .ldVxDt (fieldX w)) ∧
  WordsDecodeTo 0xF0FF 0xF015 (fun w => .ldDtVx (fieldX w)) ∧
  WordsDecodeTo 0xF0FF 0xF018 (fun w => .ldStVx (fieldX w)) ∧
  (∀ x s, ∃ t, exec (.ldVxDt x) s = .next t ∧ t.getV x = s.dt ∧ SameRegsBut [x] s t ∧ OnlyV s t) ∧
  (∀ x s, s.Fetches (.ldVxDt x) → ∃ t, step s = .next t ∧ t.getV x = s.dt ∧ t.dt.toNat = s.dt.toNat - 1) ∧
  (∀ x s, ∃ t, exec (.ldDtVx x) s = .next t ∧ t.dt = s.getV x ∧ t = { s with dt := t.dt } ∧ SameMemory s t) ∧
  (∀ x s, ∃ t, exec (.ldStVx x) s = .next t ∧ t.st = s.getV x ∧ t = { s with st := t.st } ∧ SameMemory s t)

/-- What a timer holds after the cycle that writes it: one less, so that writing 1 to `st` gives no sound. The spec's
own inference, marked [derived] in R124 and R125, from `10_state.md` R17 and R25. -/
def Obligations.WrittenTimerHoldsOneLess : Prop :=
  (∀ x s, s.Fetches (.ldDtVx x) → ∃ t, step s = .next t ∧ t.dt.toNat = (s.getV x).toNat - 1) ∧
  (∀ x s, s.Fetches (.ldStVx x) → ∃ t, step s = .next t ∧ t.st.toNat = (s.getV x).toNat - 1 ∧
    ((s.getV x).toNat = 1 → t.soundOn = false))

/-- R123: the least key pressed; with none, the cycle leaves `pc` where it was and ticks. -/
def Obligations.KeyWaitTakesLeastKey : Prop :=
  WordsDecodeTo 0xF0FF 0xF00A (fun w => .ldVxK (fieldX w)) ∧
  (∀ x s (k : Fin 16), s.key[k] = true → (∀ j : Fin 16, j < k → s.key[j] = false) →
    ∃ t, exec (.ldVxK x) s = .next t ∧ (t.getV x).toNat = k.val ∧ SameRegsBut [x] s t ∧ OnlyV s t) ∧
  (∀ x s, (∀ k : Fin 16, s.key[k] = false) →
    ∃ t, exec (.ldVxK x) s = .next t ∧ t.pc = s.pc - 2 ∧ OnlyPc s t) ∧
  (∀ x s, s.Fetches (.ldVxK x) → (∀ k : Fin 16, s.entered.key[k] = false) →
    ∃ t, step s = .next t ∧ t.pc = s.pc ∧ t.v = s.v ∧ t.dt.toNat = s.dt.toNat - 1 ∧ t.st.toNat = s.st.toNat - 1)

/-! ## The no-op (`45_nop.md`) -/

/-- R130: the unmapped words of R58, group by group; the operation changes nothing; the cycle around it advances
`pc`, latches the word and ticks. -/
def Obligations.UnmappedWordsDoNothing : Prop :=
  (∀ w, (fieldG w).toNat = 0x0 → (fieldN w).toNat ∉ [0x0, 0xE] → decode w = .nopGroup0 (fieldNnn w)) ∧
  (∀ w, (fieldG w).toNat = 0x8 → (fieldN w).toNat ∉ [0x0, 0x1, 0x2, 0x3, 0x4, 0x5, 0x6, 0x7, 0xE] →
    decode w = .nopGroup8 (fieldNnn w)) ∧
  (∀ w, (fieldG w).toNat = 0xE → (fieldN w).toNat ∉ [0xE, 0x1] → decode w = .nopGroupE (fieldNnn w)) ∧
  (∀ w, (fieldG w).toNat = 0xF → (fieldKk w).toNat ∉ [0x07, 0x0A, 0x15, 0x18, 0x1E, 0x29, 0x33, 0x55, 0x65] →
    decode w = .nopGroupF (fieldNnn w)) ∧
  (∀ low s, exec (.nopGroup0 low) s = .next s ∧ exec (.nopGroup8 low) s = .next s ∧
    exec (.nopGroupE low) s = .next s ∧ exec (.nopGroupF low) s = .next s) ∧
  (∀ low i s, i = .nopGroup0 low ∨ i = .nopGroup8 low ∨ i = .nopGroupE low ∨ i = .nopGroupF low → s.Fetches i →
    ∃ t, step s = .next t ∧ t.pc = s.pc + 2 ∧ t.ir = s.fetchedWord ∧ t.dt.toNat = s.dt.toNat - 1 ∧
      t.st.toNat = s.st.toNat - 1 ∧ SameMemory s t ∧
      t = { s with pc := t.pc, ir := t.ir, dt := t.dt, st := t.st, key := t.key, keysIn := t.keysIn })

/-! ## Rules about all instructions -/

/-- `60_exceptions.md` R141: which instruction raises which cause and on what condition; the fetch; that every other
instruction completes; the codes. -/
def Obligations.FaultCausesAndTheirRaisers : Prop :=
  (∀ s, s.fault = none → 4094 < s.pc.toNat →
    step s = .next { s with
      key := s.keysIn.headD s.key, keysIn := s.keysIn.tail, fault := some ⟨.fetchOutOfRange, s.pc⟩ }) ∧
  (∀ i s t f, s.fault = none → exec i s = .next t → t.fault = some f →
    (f.cause = .memReadOutOfRange ∧
      ((∃ x y n, i = .drwVxVyN x y n ∧ n ≠ 0 ∧ 4095 < s.base + n.toNat - 1) ∨
        ∃ x, i = .ldVxMem x ∧ 4095 < s.base + x.val)) ∨
    (f.cause = .memWriteOutOfRange ∧
      ((∃ x, i = .ldBVx x ∧ 4095 < s.base + 2) ∨ ∃ x, i = .ldMemVx x ∧ 4095 < s.base + x.val)) ∨
    (f.cause = .stackOverflow ∧ (∃ nnn, i = .callNnn nnn) ∧ 16 ≤ s.sp.toNat) ∨
    (f.cause = .stackUnderflow ∧ i = .ret ∧ s.sp = 0) ∨
    (f.cause = .keyIndexOutOfRange ∧ ∃ x, (i = .skpVx x ∨ i = .sknpVx x) ∧ 15 < (s.getV x).toNat)) ∧
  (∀ i s, s.fault = none → i ≠ .ret → (∀ nnn, i ≠ .callNnn nnn) → (∀ x y n, i ≠ .drwVxVyN x y n) →
    (∀ x, i ≠ .ldBVx x ∧ i ≠ .ldMemVx x ∧ i ≠ .ldVxMem x ∧ i ≠ .skpVx x ∧ i ≠ .sknpVx x) →
    ∃ t, exec i s = .next t ∧ t.fault = none) ∧
  [Cause.fetchOutOfRange, .memReadOutOfRange, .memWriteOutOfRange, .stackOverflow, .stackUnderflow,
    .keyIndexOutOfRange].map Cause.code = [1, 2, 3, 4, 5, 6]

/-- `10_state.md` R11: VF changes only by the six instructions that define a flag, whose flag is 0 or 1, or as a plain
destination (x = 15). -/
def Obligations.OnlySixInstructionsDefineTheFlag : Prop :=
  (∀ i s t, exec i s = .next t → t.getV VF ≠ s.getV VF →
    (∃ x y, i = .addVxVy x y ∨ i = .subVxVy x y ∨ i = .subnVxVy x y) ∨ (∃ x, i = .shrVx x ∨ i = .shlVx x) ∨
    (∃ x y n, i = .drwVxVyN x y n) ∨
    (∃ kk, i = .ldVxKk VF kk ∨ i = .addVxKk VF kk ∨ i = .rndVxKk VF kk) ∨
    (∃ y, i = .ldVxVy VF y ∨ i = .orVxVy VF y ∨ i = .andVxVy VF y ∨ i = .xorVxVy VF y) ∨
    i = .ldVxDt VF ∨ i = .ldVxK VF ∨ i = .ldVxMem VF) ∧
  (∀ i s t, s.fault = none → exec i s = .next t → t.fault = none →
    ((∃ x y, i = .addVxVy x y ∨ i = .subVxVy x y ∨ i = .subnVxVy x y) ∨ (∃ x, i = .shrVx x ∨ i = .shlVx x) ∨
      ∃ x y n, i = .drwVxVyN x y n) → t.getV VF = 0 ∨ t.getV VF = 1)

/-- `10_state.md` R24, the column "written by" of its table, and R19, R23 for the framebuffer and memory. -/
def Obligations.EveryRegisterHasItsOnlyWriters : Prop :=
  ∀ i s t, exec i s = .next t →
    (t.index ≠ s.index → (∃ nnn, i = .ldINnn nnn) ∨ ∃ x, i = .addIVx x ∨ i = .ldFVx x) ∧
    (t.pc ≠ s.pc → i = .ret ∨ (∃ nnn, i = .jpNnn nnn ∨ i = .callNnn nnn ∨ i = .jpV0Nnn nnn) ∨
      (∃ x kk, i = .seVxKk x kk ∨ i = .sneVxKk x kk) ∨ (∃ x y, i = .seVxVy x y ∨ i = .sneVxVy x y) ∨
      ∃ x, i = .skpVx x ∨ i = .sknpVx x ∨ i = .ldVxK x) ∧
    (t.sp ≠ s.sp → i = .ret ∨ ∃ nnn, i = .callNnn nnn) ∧
    (t.stack ≠ s.stack → ∃ nnn, i = .callNnn nnn) ∧
    (t.dt ≠ s.dt → ∃ x, i = .ldDtVx x) ∧
    (t.st ≠ s.st → ∃ x, i = .ldStVx x) ∧
    (t.fb ≠ s.fb → i = .cls ∨ ∃ x y n, i = .drwVxVyN x y n) ∧
    (t.mem ≠ s.mem → ∃ x, i = .ldBVx x ∨ i = .ldMemVx x) ∧
    t.ir = s.ir ∧ t.key = s.key ∧ t.keysIn = s.keysIn ∧ t.params = s.params

/-- `10_state.md` R16, R18: no instruction reads `st`, and none reads `ir` once decoded, so a program observes
neither: a run of an instruction with another value there differs there alone. -/
def Obligations.ProgramsCannotObserveIrOrSt : Prop :=
  (∀ i (s t : State) (w : Word), exec i s = .next t → exec i { s with ir := w } = .next { t with ir := w }) ∧
  (∀ i (s t : State) (b : Byte), (∀ x, i ≠ .ldStVx x) → exec i s = .next t →
    exec i { s with st := b } = .next { t with st := b })

/-- `60_exceptions.md` R141 and log entry 7: an instruction stops in no state with a legal `sp`; with `sp` above 16
`RET` alone stops, by name. -/
def Obligations.OnlyRetStopsAndOnlyOnIllegalSp : Prop :=
  (∀ i s, s.sp.toNat ≤ 16 → ∃ t, exec i s = .next t) ∧
  (∀ i s, 16 < s.sp.toNat → i ≠ .ret → ∃ t, exec i s = .next t) ∧
  (∀ s, 16 < s.sp.toNat → exec .ret s = .fault .stackPointerIllegal)

/-! ## The invariant -/

/-- The reset state meets the invariant, and so does the state in which any image is loaded, on every machine that
`00_scope.md` R5 allows. -/
def Obligations.ResetAndBootMeetInvariant : Prop :=
  StateInv State.reset ∧
  ∀ p : Config.Params, p.legal → StateInv (State.resetWith p) ∧ ∀ img t, boot p img = .next t → StateInv t

/-- Every cycle keeps the invariant: canonical memory, legal `sp`, bounded `pc`, bounded slots, legal fault info,
legal parameters (`10_state.md` R14, R24; `60_exceptions.md` R143; `00_scope.md` R5). -/
def Obligations.EveryCycleKeepsInvariant : Prop := ∀ s t, StateInv s → step s = .next t → StateInv t

/-- `00_scope.md` R7: in every state a run can reach, a cycle completes: it never stops the machine. -/
def Obligations.EveryCycleCompletes : Prop := ∀ s, StateInv s → ∃ t, step s = .next t

/-- Whatever image is loaded, on every machine that R5 allows, and whatever keys and random bytes the host presents,
every run goes on, in states that meet the invariant, and once a fault is latched it keeps the first one. (The two lists
of inputs are the model's own form: log entries 4 and 5.) -/
def Obligations.RunsOfAnyImageGoOn : Prop :=
  ∀ (p : Config.Params) img (s : State) ks rs d, p.legal → boot p img = .next s →
    ∀ n, ∃ t, Host.Core.run core n { s with keysIn := ks, randIn := rs, randDraws := d } = .next t ∧ StateInv t ∧
      ∀ f, t.fault = some f → ∀ m u,
        Host.Core.run core (n + m) { s with keysIn := ks, randIn := rs, randDraws := d } = .next u → u = t

/-- What the spec suggests to models as the end of a run (`70_reset_and_hazards.md` R170, D26; log entry 21): the core is
not halted and at `pc` stands `JP` to `pc`. The core does not stop there: every later cycle completes, the run stays
finished, and beside the word latched and the keys only the timers change, counting down. -/
def Obligations.FinishedRunsOnlyCountDown : Prop :=
  (∀ s : State, s.finished = true ↔ ∃ nnn : Addr12, s.Fetches (.jpNnn nnn) ∧ nnn.toNat = s.pc.toNat) ∧
  (∀ (s : State) f, s.fault = some f → s.finished = false) ∧
  ∀ (s : State) n, s.finished = true → ∃ t, Host.Core.run core n s = .next t ∧ t.finished = true ∧
    t.dt.toNat = s.dt.toNat - n ∧ t.st.toNat = s.st.toNat - n ∧
    t = { s with ir := t.ir, dt := t.dt, st := t.st, key := t.key, keysIn := t.keysIn }
end

