-- ==== Sys2Proof/Laws/Memory.lean ====
section
/-! SUPPORT. The laws of memory: a read after a write, and the canonical form, which every operation keeps. -/

namespace Sys2Proof.Machine.Memory

variable {p : Config.Params}

@[simp] theorem read_nil (a : Nat) : Memory.read p [] a = p.resetByte a := rfl

/-- Below the lowest address listed, memory reads as after reset. -/
theorem read_below_of_wfFrom {m : Memory} {lo a : Nat} (h : Memory.wfFrom p lo m = true) (ha : a < lo) :
    m.read p a = p.resetByte a := by
  induction m generalizing lo with
  | nil => rfl
  | cons c rest ih =>
    obtain ⟨a', b⟩ := c
    simp only [wfFrom, Bool.and_eq_true, decide_eq_true_eq] at h
    have hne : a' ≠ a := by omega
    simp only [read, hne, if_false]
    exact ih h.2 (by omega)

/-- A form from an address up is one from any lower address up. -/
theorem wfFrom_mono {m : Memory} {lo lo' : Nat} (h : Memory.wfFrom p lo m = true) (hl : lo' ≤ lo) :
    Memory.wfFrom p lo' m = true := by
  cases m with
  | nil => rfl
  | cons c rest =>
    simp only [wfFrom, Bool.and_eq_true, decide_eq_true_eq] at h ⊢
    exact ⟨⟨⟨by omega, h.1.1.2⟩, h.1.2⟩, h.2⟩

/-- A read after a write to a memory in canonical form. -/
theorem read_write_of_wfFrom {m : Memory} {lo : Nat} (h : Memory.wfFrom p lo m = true) (a b c) :
    (m.write p a b).read p c = if c = a then b else m.read p c := by
  induction m generalizing lo with
  | nil =>
    simp only [write]
    by_cases hb : b = p.resetByte a <;> by_cases hc : c = a <;> simp_all [read]
    exact fun e => absurd e.symm hc
  | cons d rest ih =>
    obtain ⟨a', b'⟩ := d
    simp only [wfFrom, Bool.and_eq_true, decide_eq_true_eq] at h
    have hbelow : ∀ {e}, e ≤ a' → Memory.read p rest e = p.resetByte e :=
      fun he => read_below_of_wfFrom h.2 (by omega)
    simp only [write]
    split
    · next hlt =>
      by_cases hc : c = a
      · subst hc
        have h1 : ¬ a' = c := by omega
        split
        · next hb => simp [read, h1, hbelow (Nat.le_of_lt hlt), hb]
        · simp [read]
      · have h1 : ¬ a = c := fun e => hc e.symm
        split <;> simp [read, h1]
    · split
      · next _ heq =>
        subst heq
        split
        · next hb =>
          by_cases hc : c = a
          · subst hc; rw [hbelow (Nat.le_refl _)]; simp [hb]
          · have : ¬ a = c := fun e => hc e.symm
            simp [read, hc, this]
        · simp only [read]
          by_cases hc : c = a
          · simp [hc]
          · have : ¬ a = c := fun e => hc e.symm
            simp [hc, this]
      · next hne _ =>
        have := ih h.2
        simp only [read, this]
        split <;> split <;> simp_all

/-- A write inside memory keeps the canonical form. -/
theorem wfFrom_write {m : Memory} {lo a : Nat} {b : Byte} (h : Memory.wfFrom p lo m = true) (hl : lo ≤ a)
    (ha : a < Config.memSize) : Memory.wfFrom p lo (m.write p a b) = true := by
  induction m generalizing lo with
  | nil =>
    simp only [write]
    split <;> simp_all [wfFrom]
  | cons d rest ih =>
    obtain ⟨a', b'⟩ := d
    have h' := h
    simp only [wfFrom, Bool.and_eq_true, decide_eq_true_eq] at h
    simp only [write]
    split
    · next hlt =>
      split
      · exact h'
      · next hb =>
        simp only [wfFrom, Bool.and_eq_true, decide_eq_true_eq]
        exact ⟨⟨⟨hl, ha⟩, by simpa using hb⟩, ⟨⟨by omega, h.1.1.2⟩, h.1.2⟩, h.2⟩
    · split
      · next _ heq =>
        subst heq
        split
        · exact wfFrom_mono h.2 (by omega)
        · next hb =>
          simp only [wfFrom, Bool.and_eq_true, decide_eq_true_eq]
          exact ⟨⟨⟨hl, ha⟩, by simpa using hb⟩, h.2⟩
      · next hne hne' =>
        simp only [wfFrom, Bool.and_eq_true, decide_eq_true_eq]
        exact ⟨h.1, ih h.2 (by omega)⟩

theorem read_write {m : Memory} (h : m.wf p = true) (a : Nat) (b : Byte) (c : Nat) :
    (m.write p a b).read p c = if c = a then b else m.read p c := read_write_of_wfFrom h a b c

/-- Every write of one byte keeps the canonical form. -/
theorem wf_write {m : Memory} {a : Nat} {b : Byte} (h : m.wf p = true) (ha : a < Config.memSize) :
    (m.write p a b).wf p = true := wfFrom_write h (Nat.zero_le _) ha

/-- Every write of several bytes keeps the canonical form. -/
theorem wf_writeAll {m : Memory} {a : Nat} {bytes : List Byte} (h : m.wf p = true)
    (ha : a + bytes.length ≤ Config.memSize) : (m.writeAll p a bytes).wf p = true := by
  induction bytes generalizing m a with
  | nil => exact h
  | cons b rest ih =>
    simp only [List.length_cons] at ha
    exact ih (wf_write h (by omega)) (by omega)

/-- A read after a write of several bytes: the bytes at their addresses, all others as before. -/
theorem read_writeAll {m : Memory} {a : Nat} {bytes : List Byte} (h : m.wf p = true)
    (ha : a + bytes.length ≤ Config.memSize) (c : Nat) :
    (m.writeAll p a bytes).read p c = if a ≤ c then (bytes[c - a]?).getD (m.read p c) else m.read p c := by
  induction bytes generalizing m a with
  | nil => simp [writeAll]
  | cons b rest ih =>
    simp only [List.length_cons] at ha
    rw [writeAll, ih (wf_write h (by omega)) (by omega), read_write h]
    rcases Nat.lt_trichotomy c a with hc | hc | hc
    · have h1 : ¬ a + 1 ≤ c := by omega
      have h2 : ¬ a ≤ c := by omega
      have h3 : c ≠ a := by omega
      simp [h1, h2, h3]
    · subst hc; simp
    · have h1 : a + 1 ≤ c := by omega
      have h2 : a ≤ c := by omega
      have h3 : c ≠ a := by omega
      have h4 : c - a = (c - (a + 1)) + 1 := by omega
      simp [h1, h2, h3, h4]

@[simp] theorem length_readAll (p : Config.Params) (m : Memory) (a n : Nat) : (m.readAll p a n).length = n := by simp [readAll]

theorem getElem?_readAll (p : Config.Params) (m : Memory) (a n k : Nat) :
    (m.readAll p a n)[k]? = if k < n then some (m.read p (a + k)) else none := by
  by_cases h : k < n <;> simp [readAll, h]

/-- A form from an address up, of two memories that read alike, is one list: equal memories are equal data. -/
theorem eq_of_read_eq_of_wfFrom {m m' : Memory} {lo lo' : Nat} (h : Memory.wfFrom p lo m = true)
    (h' : Memory.wfFrom p lo' m' = true) (hr : ∀ a, m.read p a = m'.read p a) : m = m' := by
  induction m generalizing lo lo' m' with
  | nil =>
    cases m' with
    | nil => rfl
    | cons c rest =>
      obtain ⟨a, b⟩ := c
      simp only [wfFrom, Bool.and_eq_true, decide_eq_true_eq] at h'
      have := hr a
      simp [read] at this
      simp_all
  | cons c rest ih =>
    obtain ⟨a, b⟩ := c
    simp only [wfFrom, Bool.and_eq_true, decide_eq_true_eq] at h
    cases m' with
    | nil =>
      have := hr a
      simp [read] at this
      simp_all
    | cons c' rest' =>
      obtain ⟨a', b'⟩ := c'
      simp only [wfFrom, Bool.and_eq_true, decide_eq_true_eq] at h'
      have below : ∀ {e}, e ≤ a → Memory.read p rest e = p.resetByte e :=
        fun he => read_below_of_wfFrom h.2 (by omega)
      have below' : ∀ {e}, e ≤ a' → Memory.read p rest' e = p.resetByte e :=
        fun he => read_below_of_wfFrom h'.2 (by omega)
      rcases Nat.lt_trichotomy a a' with hlt | heq | hgt
      · have e := hr a
        have hne : a' ≠ a := by omega
        simp only [read, if_true, hne, if_false] at e
        rw [below' (by omega)] at e
        simp [e] at h
      · subst heq
        have e := hr a
        simp only [read, if_true] at e
        subst e
        congr 1
        apply ih h.2 h'.2
        intro d
        by_cases hd : a = d
        · subst hd; rw [below (Nat.le_refl _), below' (Nat.le_refl _)]
        · have := hr d; simpa [read, hd] using this
      · have e := hr a'
        have hne : a ≠ a' := by omega
        simp only [read, if_true, hne, if_false] at e
        rw [below (by omega)] at e
        simp [← e] at h'

/-- Two memories in canonical form that read alike are equal. -/
theorem ext {m m' : Memory} (h : m.wf p = true) (h' : m'.wf p = true) (hr : ∀ a, m.read p a = m'.read p a) : m = m' :=
  eq_of_read_eq_of_wfFrom h h' hr

end Sys2Proof.Machine.Memory
end

