-- ==== Sys2Proof/Laws/State.lean ====
section
/-! SUPPORT. One lemma per field per update of State, true by rfl, so that no later proof unfolds a record update. -/

namespace Sys2Proof.Machine.State

/-! ## setV -/

@[simp] theorem setV_v (s : State) (r : RegIdx) (b : Byte) : (s.setV r b).v = s.v.set r b := rfl
@[simp] theorem setV_index (s : State) (r : RegIdx) (b : Byte) : (s.setV r b).index = s.index := rfl
@[simp] theorem setV_pc (s : State) (r : RegIdx) (b : Byte) : (s.setV r b).pc = s.pc := rfl
@[simp] theorem setV_sp (s : State) (r : RegIdx) (b : Byte) : (s.setV r b).sp = s.sp := rfl
@[simp] theorem setV_stack (s : State) (r : RegIdx) (b : Byte) : (s.setV r b).stack = s.stack := rfl
@[simp] theorem setV_dt (s : State) (r : RegIdx) (b : Byte) : (s.setV r b).dt = s.dt := rfl
@[simp] theorem setV_st (s : State) (r : RegIdx) (b : Byte) : (s.setV r b).st = s.st := rfl
@[simp] theorem setV_ir (s : State) (r : RegIdx) (b : Byte) : (s.setV r b).ir = s.ir := rfl
@[simp] theorem setV_fb (s : State) (r : RegIdx) (b : Byte) : (s.setV r b).fb = s.fb := rfl
@[simp] theorem setV_mem (s : State) (r : RegIdx) (b : Byte) : (s.setV r b).mem = s.mem := rfl
@[simp] theorem setV_fault (s : State) (r : RegIdx) (b : Byte) : (s.setV r b).fault = s.fault := rfl
@[simp] theorem setV_key (s : State) (r : RegIdx) (b : Byte) : (s.setV r b).key = s.key := rfl
@[simp] theorem setV_keysIn (s : State) (r : RegIdx) (b : Byte) : (s.setV r b).keysIn = s.keysIn := rfl
@[simp] theorem setV_randIn (s : State) (r : RegIdx) (b : Byte) : (s.setV r b).randIn = s.randIn := rfl
@[simp] theorem setV_randDraws (s : State) (r : RegIdx) (b : Byte) : (s.setV r b).randDraws = s.randDraws := rfl
@[simp] theorem setV_params (s : State) (r : RegIdx) (b : Byte) : (s.setV r b).params = s.params := rfl

/-! ## setAllV -/

@[simp] theorem setAllV_v (s : State) (v : Vector Byte 16) : (s.setAllV v).v = v := rfl
@[simp] theorem setAllV_index (s : State) (v : Vector Byte 16) : (s.setAllV v).index = s.index := rfl
@[simp] theorem setAllV_pc (s : State) (v : Vector Byte 16) : (s.setAllV v).pc = s.pc := rfl
@[simp] theorem setAllV_sp (s : State) (v : Vector Byte 16) : (s.setAllV v).sp = s.sp := rfl
@[simp] theorem setAllV_stack (s : State) (v : Vector Byte 16) : (s.setAllV v).stack = s.stack := rfl
@[simp] theorem setAllV_dt (s : State) (v : Vector Byte 16) : (s.setAllV v).dt = s.dt := rfl
@[simp] theorem setAllV_st (s : State) (v : Vector Byte 16) : (s.setAllV v).st = s.st := rfl
@[simp] theorem setAllV_ir (s : State) (v : Vector Byte 16) : (s.setAllV v).ir = s.ir := rfl
@[simp] theorem setAllV_fb (s : State) (v : Vector Byte 16) : (s.setAllV v).fb = s.fb := rfl
@[simp] theorem setAllV_mem (s : State) (v : Vector Byte 16) : (s.setAllV v).mem = s.mem := rfl
@[simp] theorem setAllV_fault (s : State) (v : Vector Byte 16) : (s.setAllV v).fault = s.fault := rfl
@[simp] theorem setAllV_key (s : State) (v : Vector Byte 16) : (s.setAllV v).key = s.key := rfl
@[simp] theorem setAllV_keysIn (s : State) (v : Vector Byte 16) : (s.setAllV v).keysIn = s.keysIn := rfl
@[simp] theorem setAllV_randIn (s : State) (v : Vector Byte 16) : (s.setAllV v).randIn = s.randIn := rfl
@[simp] theorem setAllV_randDraws (s : State) (v : Vector Byte 16) : (s.setAllV v).randDraws = s.randDraws := rfl
@[simp] theorem setAllV_params (s : State) (v : Vector Byte 16) : (s.setAllV v).params = s.params := rfl

/-! ## setIndex -/

@[simp] theorem setIndex_v (s : State) (w : Word) : (s.setIndex w).v = s.v := rfl
@[simp] theorem setIndex_index (s : State) (w : Word) : (s.setIndex w).index = w := rfl
@[simp] theorem setIndex_pc (s : State) (w : Word) : (s.setIndex w).pc = s.pc := rfl
@[simp] theorem setIndex_sp (s : State) (w : Word) : (s.setIndex w).sp = s.sp := rfl
@[simp] theorem setIndex_stack (s : State) (w : Word) : (s.setIndex w).stack = s.stack := rfl
@[simp] theorem setIndex_dt (s : State) (w : Word) : (s.setIndex w).dt = s.dt := rfl
@[simp] theorem setIndex_st (s : State) (w : Word) : (s.setIndex w).st = s.st := rfl
@[simp] theorem setIndex_ir (s : State) (w : Word) : (s.setIndex w).ir = s.ir := rfl
@[simp] theorem setIndex_fb (s : State) (w : Word) : (s.setIndex w).fb = s.fb := rfl
@[simp] theorem setIndex_mem (s : State) (w : Word) : (s.setIndex w).mem = s.mem := rfl
@[simp] theorem setIndex_fault (s : State) (w : Word) : (s.setIndex w).fault = s.fault := rfl
@[simp] theorem setIndex_key (s : State) (w : Word) : (s.setIndex w).key = s.key := rfl
@[simp] theorem setIndex_keysIn (s : State) (w : Word) : (s.setIndex w).keysIn = s.keysIn := rfl
@[simp] theorem setIndex_randIn (s : State) (w : Word) : (s.setIndex w).randIn = s.randIn := rfl
@[simp] theorem setIndex_randDraws (s : State) (w : Word) : (s.setIndex w).randDraws = s.randDraws := rfl
@[simp] theorem setIndex_params (s : State) (w : Word) : (s.setIndex w).params = s.params := rfl

/-! ## setPc -/

@[simp] theorem setPc_v (s : State) (w : Word) : (s.setPc w).v = s.v := rfl
@[simp] theorem setPc_index (s : State) (w : Word) : (s.setPc w).index = s.index := rfl
@[simp] theorem setPc_pc (s : State) (w : Word) : (s.setPc w).pc = w := rfl
@[simp] theorem setPc_sp (s : State) (w : Word) : (s.setPc w).sp = s.sp := rfl
@[simp] theorem setPc_stack (s : State) (w : Word) : (s.setPc w).stack = s.stack := rfl
@[simp] theorem setPc_dt (s : State) (w : Word) : (s.setPc w).dt = s.dt := rfl
@[simp] theorem setPc_st (s : State) (w : Word) : (s.setPc w).st = s.st := rfl
@[simp] theorem setPc_ir (s : State) (w : Word) : (s.setPc w).ir = s.ir := rfl
@[simp] theorem setPc_fb (s : State) (w : Word) : (s.setPc w).fb = s.fb := rfl
@[simp] theorem setPc_mem (s : State) (w : Word) : (s.setPc w).mem = s.mem := rfl
@[simp] theorem setPc_fault (s : State) (w : Word) : (s.setPc w).fault = s.fault := rfl
@[simp] theorem setPc_key (s : State) (w : Word) : (s.setPc w).key = s.key := rfl
@[simp] theorem setPc_keysIn (s : State) (w : Word) : (s.setPc w).keysIn = s.keysIn := rfl
@[simp] theorem setPc_randIn (s : State) (w : Word) : (s.setPc w).randIn = s.randIn := rfl
@[simp] theorem setPc_randDraws (s : State) (w : Word) : (s.setPc w).randDraws = s.randDraws := rfl
@[simp] theorem setPc_params (s : State) (w : Word) : (s.setPc w).params = s.params := rfl

/-! ## setDt -/

@[simp] theorem setDt_v (s : State) (b : Byte) : (s.setDt b).v = s.v := rfl
@[simp] theorem setDt_index (s : State) (b : Byte) : (s.setDt b).index = s.index := rfl
@[simp] theorem setDt_pc (s : State) (b : Byte) : (s.setDt b).pc = s.pc := rfl
@[simp] theorem setDt_sp (s : State) (b : Byte) : (s.setDt b).sp = s.sp := rfl
@[simp] theorem setDt_stack (s : State) (b : Byte) : (s.setDt b).stack = s.stack := rfl
@[simp] theorem setDt_dt (s : State) (b : Byte) : (s.setDt b).dt = b := rfl
@[simp] theorem setDt_st (s : State) (b : Byte) : (s.setDt b).st = s.st := rfl
@[simp] theorem setDt_ir (s : State) (b : Byte) : (s.setDt b).ir = s.ir := rfl
@[simp] theorem setDt_fb (s : State) (b : Byte) : (s.setDt b).fb = s.fb := rfl
@[simp] theorem setDt_mem (s : State) (b : Byte) : (s.setDt b).mem = s.mem := rfl
@[simp] theorem setDt_fault (s : State) (b : Byte) : (s.setDt b).fault = s.fault := rfl
@[simp] theorem setDt_key (s : State) (b : Byte) : (s.setDt b).key = s.key := rfl
@[simp] theorem setDt_keysIn (s : State) (b : Byte) : (s.setDt b).keysIn = s.keysIn := rfl
@[simp] theorem setDt_randIn (s : State) (b : Byte) : (s.setDt b).randIn = s.randIn := rfl
@[simp] theorem setDt_randDraws (s : State) (b : Byte) : (s.setDt b).randDraws = s.randDraws := rfl
@[simp] theorem setDt_params (s : State) (b : Byte) : (s.setDt b).params = s.params := rfl

/-! ## setSt -/

@[simp] theorem setSt_v (s : State) (b : Byte) : (s.setSt b).v = s.v := rfl
@[simp] theorem setSt_index (s : State) (b : Byte) : (s.setSt b).index = s.index := rfl
@[simp] theorem setSt_pc (s : State) (b : Byte) : (s.setSt b).pc = s.pc := rfl
@[simp] theorem setSt_sp (s : State) (b : Byte) : (s.setSt b).sp = s.sp := rfl
@[simp] theorem setSt_stack (s : State) (b : Byte) : (s.setSt b).stack = s.stack := rfl
@[simp] theorem setSt_dt (s : State) (b : Byte) : (s.setSt b).dt = s.dt := rfl
@[simp] theorem setSt_st (s : State) (b : Byte) : (s.setSt b).st = b := rfl
@[simp] theorem setSt_ir (s : State) (b : Byte) : (s.setSt b).ir = s.ir := rfl
@[simp] theorem setSt_fb (s : State) (b : Byte) : (s.setSt b).fb = s.fb := rfl
@[simp] theorem setSt_mem (s : State) (b : Byte) : (s.setSt b).mem = s.mem := rfl
@[simp] theorem setSt_fault (s : State) (b : Byte) : (s.setSt b).fault = s.fault := rfl
@[simp] theorem setSt_key (s : State) (b : Byte) : (s.setSt b).key = s.key := rfl
@[simp] theorem setSt_keysIn (s : State) (b : Byte) : (s.setSt b).keysIn = s.keysIn := rfl
@[simp] theorem setSt_randIn (s : State) (b : Byte) : (s.setSt b).randIn = s.randIn := rfl
@[simp] theorem setSt_randDraws (s : State) (b : Byte) : (s.setSt b).randDraws = s.randDraws := rfl
@[simp] theorem setSt_params (s : State) (b : Byte) : (s.setSt b).params = s.params := rfl

/-! ## setIr -/

@[simp] theorem setIr_v (s : State) (w : Word) : (s.setIr w).v = s.v := rfl
@[simp] theorem setIr_index (s : State) (w : Word) : (s.setIr w).index = s.index := rfl
@[simp] theorem setIr_pc (s : State) (w : Word) : (s.setIr w).pc = s.pc := rfl
@[simp] theorem setIr_sp (s : State) (w : Word) : (s.setIr w).sp = s.sp := rfl
@[simp] theorem setIr_stack (s : State) (w : Word) : (s.setIr w).stack = s.stack := rfl
@[simp] theorem setIr_dt (s : State) (w : Word) : (s.setIr w).dt = s.dt := rfl
@[simp] theorem setIr_st (s : State) (w : Word) : (s.setIr w).st = s.st := rfl
@[simp] theorem setIr_ir (s : State) (w : Word) : (s.setIr w).ir = w := rfl
@[simp] theorem setIr_fb (s : State) (w : Word) : (s.setIr w).fb = s.fb := rfl
@[simp] theorem setIr_mem (s : State) (w : Word) : (s.setIr w).mem = s.mem := rfl
@[simp] theorem setIr_fault (s : State) (w : Word) : (s.setIr w).fault = s.fault := rfl
@[simp] theorem setIr_key (s : State) (w : Word) : (s.setIr w).key = s.key := rfl
@[simp] theorem setIr_keysIn (s : State) (w : Word) : (s.setIr w).keysIn = s.keysIn := rfl
@[simp] theorem setIr_randIn (s : State) (w : Word) : (s.setIr w).randIn = s.randIn := rfl
@[simp] theorem setIr_randDraws (s : State) (w : Word) : (s.setIr w).randDraws = s.randDraws := rfl
@[simp] theorem setIr_params (s : State) (w : Word) : (s.setIr w).params = s.params := rfl

/-! ## setFb -/

@[simp] theorem setFb_v (s : State) (fb : Framebuffer) : (s.setFb fb).v = s.v := rfl
@[simp] theorem setFb_index (s : State) (fb : Framebuffer) : (s.setFb fb).index = s.index := rfl
@[simp] theorem setFb_pc (s : State) (fb : Framebuffer) : (s.setFb fb).pc = s.pc := rfl
@[simp] theorem setFb_sp (s : State) (fb : Framebuffer) : (s.setFb fb).sp = s.sp := rfl
@[simp] theorem setFb_stack (s : State) (fb : Framebuffer) : (s.setFb fb).stack = s.stack := rfl
@[simp] theorem setFb_dt (s : State) (fb : Framebuffer) : (s.setFb fb).dt = s.dt := rfl
@[simp] theorem setFb_st (s : State) (fb : Framebuffer) : (s.setFb fb).st = s.st := rfl
@[simp] theorem setFb_ir (s : State) (fb : Framebuffer) : (s.setFb fb).ir = s.ir := rfl
@[simp] theorem setFb_fb (s : State) (fb : Framebuffer) : (s.setFb fb).fb = fb := rfl
@[simp] theorem setFb_mem (s : State) (fb : Framebuffer) : (s.setFb fb).mem = s.mem := rfl
@[simp] theorem setFb_fault (s : State) (fb : Framebuffer) : (s.setFb fb).fault = s.fault := rfl
@[simp] theorem setFb_key (s : State) (fb : Framebuffer) : (s.setFb fb).key = s.key := rfl
@[simp] theorem setFb_keysIn (s : State) (fb : Framebuffer) : (s.setFb fb).keysIn = s.keysIn := rfl
@[simp] theorem setFb_randIn (s : State) (fb : Framebuffer) : (s.setFb fb).randIn = s.randIn := rfl
@[simp] theorem setFb_randDraws (s : State) (fb : Framebuffer) : (s.setFb fb).randDraws = s.randDraws := rfl
@[simp] theorem setFb_params (s : State) (fb : Framebuffer) : (s.setFb fb).params = s.params := rfl

/-! ## setMem -/

@[simp] theorem setMem_v (s : State) (m : Memory) : (s.setMem m).v = s.v := rfl
@[simp] theorem setMem_index (s : State) (m : Memory) : (s.setMem m).index = s.index := rfl
@[simp] theorem setMem_pc (s : State) (m : Memory) : (s.setMem m).pc = s.pc := rfl
@[simp] theorem setMem_sp (s : State) (m : Memory) : (s.setMem m).sp = s.sp := rfl
@[simp] theorem setMem_stack (s : State) (m : Memory) : (s.setMem m).stack = s.stack := rfl
@[simp] theorem setMem_dt (s : State) (m : Memory) : (s.setMem m).dt = s.dt := rfl
@[simp] theorem setMem_st (s : State) (m : Memory) : (s.setMem m).st = s.st := rfl
@[simp] theorem setMem_ir (s : State) (m : Memory) : (s.setMem m).ir = s.ir := rfl
@[simp] theorem setMem_fb (s : State) (m : Memory) : (s.setMem m).fb = s.fb := rfl
@[simp] theorem setMem_mem (s : State) (m : Memory) : (s.setMem m).mem = m := rfl
@[simp] theorem setMem_fault (s : State) (m : Memory) : (s.setMem m).fault = s.fault := rfl
@[simp] theorem setMem_key (s : State) (m : Memory) : (s.setMem m).key = s.key := rfl
@[simp] theorem setMem_keysIn (s : State) (m : Memory) : (s.setMem m).keysIn = s.keysIn := rfl
@[simp] theorem setMem_randIn (s : State) (m : Memory) : (s.setMem m).randIn = s.randIn := rfl
@[simp] theorem setMem_randDraws (s : State) (m : Memory) : (s.setMem m).randDraws = s.randDraws := rfl
@[simp] theorem setMem_params (s : State) (m : Memory) : (s.setMem m).params = s.params := rfl

/-! ## latch -/

@[simp] theorem latch_v (s : State) (f : FaultRecord) : (s.latch f).v = s.v := rfl
@[simp] theorem latch_index (s : State) (f : FaultRecord) : (s.latch f).index = s.index := rfl
@[simp] theorem latch_pc (s : State) (f : FaultRecord) : (s.latch f).pc = s.pc := rfl
@[simp] theorem latch_sp (s : State) (f : FaultRecord) : (s.latch f).sp = s.sp := rfl
@[simp] theorem latch_stack (s : State) (f : FaultRecord) : (s.latch f).stack = s.stack := rfl
@[simp] theorem latch_dt (s : State) (f : FaultRecord) : (s.latch f).dt = s.dt := rfl
@[simp] theorem latch_st (s : State) (f : FaultRecord) : (s.latch f).st = s.st := rfl
@[simp] theorem latch_ir (s : State) (f : FaultRecord) : (s.latch f).ir = s.ir := rfl
@[simp] theorem latch_fb (s : State) (f : FaultRecord) : (s.latch f).fb = s.fb := rfl
@[simp] theorem latch_mem (s : State) (f : FaultRecord) : (s.latch f).mem = s.mem := rfl
@[simp] theorem latch_fault (s : State) (f : FaultRecord) : (s.latch f).fault = some f := rfl
@[simp] theorem latch_key (s : State) (f : FaultRecord) : (s.latch f).key = s.key := rfl
@[simp] theorem latch_keysIn (s : State) (f : FaultRecord) : (s.latch f).keysIn = s.keysIn := rfl
@[simp] theorem latch_randIn (s : State) (f : FaultRecord) : (s.latch f).randIn = s.randIn := rfl
@[simp] theorem latch_randDraws (s : State) (f : FaultRecord) : (s.latch f).randDraws = s.randDraws := rfl
@[simp] theorem latch_params (s : State) (f : FaultRecord) : (s.latch f).params = s.params := rfl

/-! ## drawn -/

@[simp] theorem drawn_v (s : State) : (s.drawn).v = s.v := rfl
@[simp] theorem drawn_index (s : State) : (s.drawn).index = s.index := rfl
@[simp] theorem drawn_pc (s : State) : (s.drawn).pc = s.pc := rfl
@[simp] theorem drawn_sp (s : State) : (s.drawn).sp = s.sp := rfl
@[simp] theorem drawn_stack (s : State) : (s.drawn).stack = s.stack := rfl
@[simp] theorem drawn_dt (s : State) : (s.drawn).dt = s.dt := rfl
@[simp] theorem drawn_st (s : State) : (s.drawn).st = s.st := rfl
@[simp] theorem drawn_ir (s : State) : (s.drawn).ir = s.ir := rfl
@[simp] theorem drawn_fb (s : State) : (s.drawn).fb = s.fb := rfl
@[simp] theorem drawn_mem (s : State) : (s.drawn).mem = s.mem := rfl
@[simp] theorem drawn_fault (s : State) : (s.drawn).fault = s.fault := rfl
@[simp] theorem drawn_key (s : State) : (s.drawn).key = s.key := rfl
@[simp] theorem drawn_keysIn (s : State) : (s.drawn).keysIn = s.keysIn := rfl
@[simp] theorem drawn_randIn (s : State) : (s.drawn).randIn = s.randIn.tail := rfl
@[simp] theorem drawn_randDraws (s : State) : (s.drawn).randDraws = s.randDraws + 1 := rfl
@[simp] theorem drawn_params (s : State) : (s.drawn).params = s.params := rfl

/-! ## tick -/

@[simp] theorem tick_v (s : State) : (s.tick).v = s.v := rfl
@[simp] theorem tick_index (s : State) : (s.tick).index = s.index := rfl
@[simp] theorem tick_pc (s : State) : (s.tick).pc = s.pc := rfl
@[simp] theorem tick_sp (s : State) : (s.tick).sp = s.sp := rfl
@[simp] theorem tick_stack (s : State) : (s.tick).stack = s.stack := rfl
@[simp] theorem tick_dt (s : State) : (s.tick).dt = countDown s.dt := rfl
@[simp] theorem tick_st (s : State) : (s.tick).st = countDown s.st := rfl
@[simp] theorem tick_ir (s : State) : (s.tick).ir = s.ir := rfl
@[simp] theorem tick_fb (s : State) : (s.tick).fb = s.fb := rfl
@[simp] theorem tick_mem (s : State) : (s.tick).mem = s.mem := rfl
@[simp] theorem tick_fault (s : State) : (s.tick).fault = s.fault := rfl
@[simp] theorem tick_key (s : State) : (s.tick).key = s.key := rfl
@[simp] theorem tick_keysIn (s : State) : (s.tick).keysIn = s.keysIn := rfl
@[simp] theorem tick_randIn (s : State) : (s.tick).randIn = s.randIn := rfl
@[simp] theorem tick_randDraws (s : State) : (s.tick).randDraws = s.randDraws := rfl
@[simp] theorem tick_params (s : State) : (s.tick).params = s.params := rfl

/-! ## snapshot -/

@[simp] theorem snapshot_v (s : State) : (s.snapshot).v = s.v := rfl
@[simp] theorem snapshot_index (s : State) : (s.snapshot).index = s.index := rfl
@[simp] theorem snapshot_pc (s : State) : (s.snapshot).pc = s.pc := rfl
@[simp] theorem snapshot_sp (s : State) : (s.snapshot).sp = s.sp := rfl
@[simp] theorem snapshot_stack (s : State) : (s.snapshot).stack = s.stack := rfl
@[simp] theorem snapshot_dt (s : State) : (s.snapshot).dt = s.dt := rfl
@[simp] theorem snapshot_st (s : State) : (s.snapshot).st = s.st := rfl
@[simp] theorem snapshot_ir (s : State) : (s.snapshot).ir = s.ir := rfl
@[simp] theorem snapshot_fb (s : State) : (s.snapshot).fb = s.fb := rfl
@[simp] theorem snapshot_mem (s : State) : (s.snapshot).mem = s.mem := rfl
@[simp] theorem snapshot_fault (s : State) : (s.snapshot).fault = s.fault := rfl
@[simp] theorem snapshot_key (s : State) : (s.snapshot).key = s.keysIn.headD s.key := rfl
@[simp] theorem snapshot_keysIn (s : State) : (s.snapshot).keysIn = s.keysIn.tail := rfl
@[simp] theorem snapshot_randIn (s : State) : (s.snapshot).randIn = s.randIn := rfl
@[simp] theorem snapshot_randDraws (s : State) : (s.snapshot).randDraws = s.randDraws := rfl
@[simp] theorem snapshot_params (s : State) : (s.snapshot).params = s.params := rfl

/-! ## setResultFlag -/

@[simp] theorem setResultFlag_v (s : State) (x : RegIdx) (r f : Byte) : (s.setResultFlag x r f).v = (s.v.set x r).set VF f := rfl
@[simp] theorem setResultFlag_index (s : State) (x : RegIdx) (r f : Byte) : (s.setResultFlag x r f).index = s.index := rfl
@[simp] theorem setResultFlag_pc (s : State) (x : RegIdx) (r f : Byte) : (s.setResultFlag x r f).pc = s.pc := rfl
@[simp] theorem setResultFlag_sp (s : State) (x : RegIdx) (r f : Byte) : (s.setResultFlag x r f).sp = s.sp := rfl
@[simp] theorem setResultFlag_stack (s : State) (x : RegIdx) (r f : Byte) : (s.setResultFlag x r f).stack = s.stack := rfl
@[simp] theorem setResultFlag_dt (s : State) (x : RegIdx) (r f : Byte) : (s.setResultFlag x r f).dt = s.dt := rfl
@[simp] theorem setResultFlag_st (s : State) (x : RegIdx) (r f : Byte) : (s.setResultFlag x r f).st = s.st := rfl
@[simp] theorem setResultFlag_ir (s : State) (x : RegIdx) (r f : Byte) : (s.setResultFlag x r f).ir = s.ir := rfl
@[simp] theorem setResultFlag_fb (s : State) (x : RegIdx) (r f : Byte) : (s.setResultFlag x r f).fb = s.fb := rfl
@[simp] theorem setResultFlag_mem (s : State) (x : RegIdx) (r f : Byte) : (s.setResultFlag x r f).mem = s.mem := rfl
@[simp] theorem setResultFlag_fault (s : State) (x : RegIdx) (r f : Byte) : (s.setResultFlag x r f).fault = s.fault := rfl
@[simp] theorem setResultFlag_key (s : State) (x : RegIdx) (r f : Byte) : (s.setResultFlag x r f).key = s.key := rfl
@[simp] theorem setResultFlag_keysIn (s : State) (x : RegIdx) (r f : Byte) : (s.setResultFlag x r f).keysIn = s.keysIn := rfl
@[simp] theorem setResultFlag_randIn (s : State) (x : RegIdx) (r f : Byte) : (s.setResultFlag x r f).randIn = s.randIn := rfl
@[simp] theorem setResultFlag_randDraws (s : State) (x : RegIdx) (r f : Byte) : (s.setResultFlag x r f).randDraws = s.randDraws := rfl
@[simp] theorem setResultFlag_params (s : State) (x : RegIdx) (r f : Byte) : (s.setResultFlag x r f).params = s.params := rfl

/-! ## skipIf -/

@[simp] theorem skipIf_v (s : State) (c : Bool) : (s.skipIf c).v = s.v := rfl
@[simp] theorem skipIf_index (s : State) (c : Bool) : (s.skipIf c).index = s.index := rfl
@[simp] theorem skipIf_pc (s : State) (c : Bool) : (s.skipIf c).pc = if c then s.skipTarget else s.pc := rfl
@[simp] theorem skipIf_sp (s : State) (c : Bool) : (s.skipIf c).sp = s.sp := rfl
@[simp] theorem skipIf_stack (s : State) (c : Bool) : (s.skipIf c).stack = s.stack := rfl
@[simp] theorem skipIf_dt (s : State) (c : Bool) : (s.skipIf c).dt = s.dt := rfl
@[simp] theorem skipIf_st (s : State) (c : Bool) : (s.skipIf c).st = s.st := rfl
@[simp] theorem skipIf_ir (s : State) (c : Bool) : (s.skipIf c).ir = s.ir := rfl
@[simp] theorem skipIf_fb (s : State) (c : Bool) : (s.skipIf c).fb = s.fb := rfl
@[simp] theorem skipIf_mem (s : State) (c : Bool) : (s.skipIf c).mem = s.mem := rfl
@[simp] theorem skipIf_fault (s : State) (c : Bool) : (s.skipIf c).fault = s.fault := rfl
@[simp] theorem skipIf_key (s : State) (c : Bool) : (s.skipIf c).key = s.key := rfl
@[simp] theorem skipIf_keysIn (s : State) (c : Bool) : (s.skipIf c).keysIn = s.keysIn := rfl
@[simp] theorem skipIf_randIn (s : State) (c : Bool) : (s.skipIf c).randIn = s.randIn := rfl
@[simp] theorem skipIf_randDraws (s : State) (c : Bool) : (s.skipIf c).randDraws = s.randDraws := rfl
@[simp] theorem skipIf_params (s : State) (c : Bool) : (s.skipIf c).params = s.params := rfl

/-! ## setBytes -/

@[simp] theorem setBytes_v (s : State) (a : Nat) (bytes : List Byte) : (s.setBytes a bytes).v = s.v := rfl
@[simp] theorem setBytes_index (s : State) (a : Nat) (bytes : List Byte) : (s.setBytes a bytes).index = s.index := rfl
@[simp] theorem setBytes_pc (s : State) (a : Nat) (bytes : List Byte) : (s.setBytes a bytes).pc = s.pc := rfl
@[simp] theorem setBytes_sp (s : State) (a : Nat) (bytes : List Byte) : (s.setBytes a bytes).sp = s.sp := rfl
@[simp] theorem setBytes_stack (s : State) (a : Nat) (bytes : List Byte) : (s.setBytes a bytes).stack = s.stack := rfl
@[simp] theorem setBytes_dt (s : State) (a : Nat) (bytes : List Byte) : (s.setBytes a bytes).dt = s.dt := rfl
@[simp] theorem setBytes_st (s : State) (a : Nat) (bytes : List Byte) : (s.setBytes a bytes).st = s.st := rfl
@[simp] theorem setBytes_ir (s : State) (a : Nat) (bytes : List Byte) : (s.setBytes a bytes).ir = s.ir := rfl
@[simp] theorem setBytes_fb (s : State) (a : Nat) (bytes : List Byte) : (s.setBytes a bytes).fb = s.fb := rfl
@[simp] theorem setBytes_fault (s : State) (a : Nat) (bytes : List Byte) : (s.setBytes a bytes).fault = s.fault := rfl
@[simp] theorem setBytes_key (s : State) (a : Nat) (bytes : List Byte) : (s.setBytes a bytes).key = s.key := rfl
@[simp] theorem setBytes_keysIn (s : State) (a : Nat) (bytes : List Byte) : (s.setBytes a bytes).keysIn = s.keysIn := rfl
@[simp] theorem setBytes_randIn (s : State) (a : Nat) (bytes : List Byte) : (s.setBytes a bytes).randIn = s.randIn := rfl
@[simp] theorem setBytes_randDraws (s : State) (a : Nat) (bytes : List Byte) : (s.setBytes a bytes).randDraws = s.randDraws := rfl
@[simp] theorem setBytes_params (s : State) (a : Nat) (bytes : List Byte) : (s.setBytes a bytes).params = s.params := rfl

/-! ## byteAt: every update but a store leaves memory as it was -/

@[simp] theorem byteAt_setV (s : State) (r : RegIdx) (b : Byte) (c' : Nat) : (s.setV r b).byteAt c' = s.byteAt c' := rfl
@[simp] theorem byteAt_setAllV (s : State) (v : Vector Byte 16) (c' : Nat) : (s.setAllV v).byteAt c' = s.byteAt c' := rfl
@[simp] theorem byteAt_setIndex (s : State) (w : Word) (c' : Nat) : (s.setIndex w).byteAt c' = s.byteAt c' := rfl
@[simp] theorem byteAt_setPc (s : State) (w : Word) (c' : Nat) : (s.setPc w).byteAt c' = s.byteAt c' := rfl
@[simp] theorem byteAt_setDt (s : State) (b : Byte) (c' : Nat) : (s.setDt b).byteAt c' = s.byteAt c' := rfl
@[simp] theorem byteAt_setSt (s : State) (b : Byte) (c' : Nat) : (s.setSt b).byteAt c' = s.byteAt c' := rfl
@[simp] theorem byteAt_setIr (s : State) (w : Word) (c' : Nat) : (s.setIr w).byteAt c' = s.byteAt c' := rfl
@[simp] theorem byteAt_setFb (s : State) (fb : Framebuffer) (c' : Nat) : (s.setFb fb).byteAt c' = s.byteAt c' := rfl
@[simp] theorem byteAt_latch (s : State) (f : FaultRecord) (c' : Nat) : (s.latch f).byteAt c' = s.byteAt c' := rfl
@[simp] theorem byteAt_drawn (s : State) (c' : Nat) : (s.drawn).byteAt c' = s.byteAt c' := rfl
@[simp] theorem byteAt_tick (s : State) (c' : Nat) : (s.tick).byteAt c' = s.byteAt c' := rfl
@[simp] theorem byteAt_snapshot (s : State) (c' : Nat) : (s.snapshot).byteAt c' = s.byteAt c' := rfl
@[simp] theorem byteAt_setResultFlag (s : State) (x : RegIdx) (r f : Byte) (c' : Nat) : (s.setResultFlag x r f).byteAt c' = s.byteAt c' := rfl
@[simp] theorem byteAt_skipIf (s : State) (c : Bool) (c' : Nat) : (s.skipIf c).byteAt c' = s.byteAt c' := rfl

/-! ## Reading a register after a write -/

@[simp] theorem getV_setV_same (s : State) (r : RegIdx) (b : Byte) : (s.setV r b).getV r = b := by
  simp [getV]

theorem getV_setV_of_ne (s : State) {r q : RegIdx} (b : Byte) (h : q ≠ r) : (s.setV r b).getV q = s.getV q := by
  have : r.val ≠ q.val := fun e => h (Fin.ext e.symm)
  simp [getV, Vector.getElem_set_ne, this]

@[simp] theorem getV_setResultFlag_flag (s : State) (x : RegIdx) (r f : Byte) :
    (s.setResultFlag x r f).getV VF = f := by
  simp [setResultFlag]

theorem getV_setResultFlag_result (s : State) {x : RegIdx} (r f : Byte) (h : x ≠ VF) :
    (s.setResultFlag x r f).getV x = r := by
  rw [setResultFlag, getV_setV_of_ne _ _ h, getV_setV_same]

theorem getV_setResultFlag_of_ne (s : State) {x q : RegIdx} (r f : Byte) (h : q ≠ x) (h' : q ≠ VF) :
    (s.setResultFlag x r f).getV q = s.getV q := by
  rw [setResultFlag, getV_setV_of_ne _ _ h', getV_setV_of_ne _ _ h]

@[simp] theorem getV_setPc (s : State) (w : Word) (q : RegIdx) : (s.setPc w).getV q = s.getV q := rfl

@[simp] theorem getV_setFb (s : State) (fb : Framebuffer) (q : RegIdx) : (s.setFb fb).getV q = s.getV q := rfl

@[simp] theorem getV_drawn (s : State) (q : RegIdx) : s.drawn.getV q = s.getV q := rfl

@[simp] theorem getV_setIr (s : State) (w : Word) (q : RegIdx) : (s.setIr w).getV q = s.getV q := rfl

@[simp] theorem getV_snapshot (s : State) (q : RegIdx) : s.snapshot.getV q = s.getV q := rfl

@[simp] theorem getV_tick (s : State) (q : RegIdx) : s.tick.getV q = s.getV q := rfl

@[simp] theorem getV_latch (s : State) (f : FaultRecord) (q : RegIdx) : (s.latch f).getV q = s.getV q := rfl

end Sys2Proof.Machine.State
end

