-- ==== Sys2Proof/Laws/Ops.lean ====
section
/-! SUPPORT. For each shared operation, what it can do, said once. -/

namespace Sys2Proof.Machine

@[simp] theorem flagByte_true : flagByte true = 1 := rfl

@[simp] theorem flagByte_false : flagByte false = 0 := rfl

theorem toNat_countDown (b : Byte) : (countDown b).toNat = b.toNat - 1 := by
  unfold countDown
  split
  · next h => subst h; rfl
  · next h =>
    have : b.toNat ≠ 0 := fun e => h (by apply BitVec.eq_of_toNat_eq; simpa using e)
    have := b.isLt
    simp only [BitVec.toNat_sub]
    simp
    omega

@[simp] theorem toNat_addrWord (nnn : Addr12) : (addrWord nnn).toNat = nnn.toNat := by
  have := nnn.isLt
  simp [addrWord, BitVec.toNat_setWidth]
  omega

@[simp] theorem toNat_byteWord (b : Byte) : (byteWord b).toNat = b.toNat := by
  have := b.isLt
  simp [byteWord, BitVec.toNat_setWidth]
  omega

/-! ## The memory of a state -/

/-- A read after a store of several bytes: the bytes at their addresses, all others as before. -/
theorem byteAt_setBytes {s : State} {a : Nat} {bytes : List Byte} (h : s.memWf = true)
    (ha : a + bytes.length ≤ Config.memSize) (c : Nat) :
    (s.setBytes a bytes).byteAt c = if a ≤ c then (bytes[c - a]?).getD (s.byteAt c) else s.byteAt c :=
  Memory.read_writeAll h ha c

/-- A store inside memory keeps the canonical form. -/
theorem memWf_setBytes {s : State} {a : Nat} {bytes : List Byte} (h : s.memWf = true)
    (ha : a + bytes.length ≤ Config.memSize) : (s.setBytes a bytes).memWf = true :=
  Memory.wf_writeAll h ha

theorem getElem?_bytesAt (s : State) (a n k : Nat) :
    (s.bytesAt a n)[k]? = if k < n then some (s.byteAt (a + k)) else none :=
  Memory.getElem?_readAll s.params s.mem a n k

@[simp] theorem length_bytesAt (s : State) (a n : Nat) : (s.bytesAt a n).length = n :=
  Memory.length_readAll s.params s.mem a n

/-- After reset memory is the font at its place and 0 elsewhere. -/
theorem byteAt_resetWith (p : Config.Params) (a : Nat) : (State.resetWith p).byteAt a = p.resetByte a := rfl

@[simp] theorem memWf_resetWith (p : Config.Params) : (State.resetWith p).memWf = true := rfl

/-- A legal load address fits the program counter. -/
theorem toNat_loadAddr {p : Config.Params} (h : p.legal) : (BitVec.ofNat 16 p.loadAddr).toNat = p.loadAddr := by
  have := h.2
  simp only [BitVec.toNat_ofNat]
  omega

/-! ## Range checks -/

/-- The range check passes exactly when every address is inside memory. -/
theorem lowestOutOfRange_none {base count : Nat} (h : count = 0 ∨ base + count ≤ 4096) :
    lowestOutOfRange base count = none := by
  simp [lowestOutOfRange, Config.memSize, h]

theorem lowestOutOfRange_some {base count : Nat} (h : ¬ (count = 0 ∨ base + count ≤ 4096)) :
    lowestOutOfRange base count = some (max base 4096) := by
  simp only [lowestOutOfRange, Config.memSize, h, if_false]

theorem readRange_ok {s : State} {base count : Nat} (h : count = 0 ∨ base + count ≤ 4096) :
    s.readRange base count = .ok (s.bytesAt base count) := by
  simp [State.readRange, lowestOutOfRange_none h]

theorem readRange_error {s : State} {base count : Nat} (h : ¬ (count = 0 ∨ base + count ≤ 4096)) :
    s.readRange base count = .error ⟨.memReadOutOfRange, BitVec.ofNat 16 (max base 4096)⟩ := by
  simp [State.readRange, lowestOutOfRange_some h]

theorem writeRange_ok {s : State} {base : Nat} {bytes : List Byte}
    (h : bytes.length = 0 ∨ base + bytes.length ≤ 4096) :
    s.writeRange base bytes = .ok (s.setBytes base bytes) := by
  simp [State.writeRange, lowestOutOfRange_none h]

theorem writeRange_error {s : State} {base : Nat} {bytes : List Byte}
    (h : ¬ (bytes.length = 0 ∨ base + bytes.length ≤ 4096)) :
    s.writeRange base bytes = .error ⟨.memWriteOutOfRange, BitVec.ofNat 16 (max base 4096)⟩ := by
  simp only [State.writeRange, lowestOutOfRange_some h]

theorem readWord_ok {s : State} {a : Nat} (h : a ≤ 4094) :
    s.readWord a = .ok (wordOfBytes (s.byteAt a) (s.byteAt (a + 1))) := by
  simp [State.readWord, Config.memSize, show a + 2 ≤ 4096 by omega]

theorem readWord_error {s : State} {a : Nat} (h : 4094 < a) :
    s.readWord a = .error ⟨.fetchOutOfRange, BitVec.ofNat 16 a⟩ := by
  simp [State.readWord, Config.memSize, show ¬ a + 2 ≤ 4096 by omega]

theorem push_full {s : State} (w : Word) (h : 16 ≤ s.sp.toNat) :
    s.push w = .error ⟨.stackOverflow, s.sp.setWidth 16⟩ := by
  simp [State.push, Config.stackDepth, h]

theorem push_ok {s : State} (w : Word) (h : s.sp.toNat < 16) :
    s.push w = .ok { s with stack := s.stack.setIfInBounds s.sp.toNat w, sp := s.sp + 1 } := by
  simp [State.push, Config.stackDepth, show ¬ 16 ≤ s.sp.toNat by omega]

theorem pop_empty {s : State} (h : s.sp = 0) : s.pop = .empty ⟨.stackUnderflow, 0⟩ := by simp [State.pop, h]

theorem pop_value {s : State} (h0 : 0 < s.sp.toNat) (h : s.sp.toNat ≤ 16) :
    s.pop = .value (s.stack[s.sp.toNat - 1]) { s with sp := s.sp - 1 } := by
  have hne : ¬ s.sp = 0#8 := fun e => by rw [e] at h0; simp at h0
  have hlt : s.sp.toNat - 1 < 16 := by omega
  simp [State.pop, hne, Vector.getElem?_eq_getElem hlt]

theorem pop_noSlot {s : State} (h : 16 < s.sp.toNat) : s.pop = .noSlot := by
  have hne : ¬ s.sp = 0#8 := fun e => by rw [e] at h; simp at h
  have : s.stack[s.sp.toNat - 1]? = none := by
    apply Vector.getElem?_eq_none; omega
  simp [State.pop, hne, this]

theorem keyAt_some {s : State} {b : Byte} (h : b.toNat ≤ 15) :
    s.keyAt b = some (s.key[b.toNat]'(by omega)) := by
  simp [State.keyAt, Vector.getElem?_eq_getElem (show b.toNat < 16 by omega)]

theorem keyAt_none {s : State} {b : Byte} (h : 15 < b.toNat) : s.keyAt b = none := by
  simp only [State.keyAt]
  apply Vector.getElem?_eq_none; omega

@[simp] theorem length_regsUpTo (s : State) (x : RegIdx) : (s.regsUpTo x).length = x.val + 1 := by
  have := x.isLt
  simp [State.regsUpTo]

theorem getElem?_regsUpTo (s : State) (x : RegIdx) (k : Fin 16) (h : k ≤ x) :
    (s.regsUpTo x)[k.val]? = some (s.getV k) := by
  have : k.val < x.val + 1 := by have : k.val ≤ x.val := h; omega
  simp [State.regsUpTo, this, State.getV]

@[simp] theorem length_decimalDigits (b : Byte) : (decimalDigits b).length = 3 := rfl

theorem getElem_withRegs (s : State) (bytes : List Byte) (r : Fin 16) :
    (s.withRegs bytes)[r] = bytes[r.val]?.getD (s.getV r) := by
  simp [State.withRegs, State.getV]

/-- No key pressed. -/
theorem firstPressed_none {s : State} (h : ∀ k : Fin 16, s.key[k] = false) : s.firstPressed = none := by
  have : s.key.toList.findIdx? id = none := by
    rw [List.findIdx?_eq_none_iff]
    intro b hb
    obtain ⟨k, hk, e⟩ := List.getElem_of_mem hb
    have hk' : k < 16 := by simpa using hk
    have := h ⟨k, hk'⟩
    simp at this e
    simp [← e, this]
  simp [State.firstPressed, this]

/-- The least key pressed. -/
theorem firstPressed_some {s : State} {k : Fin 16} (hk : s.key[k] = true) (hl : ∀ j, j < k → s.key[j] = false) :
    s.firstPressed = some (BitVec.ofNat 8 k.val) := by
  have : s.key.toList.findIdx? id = some k.val := by
    rw [List.findIdx?_eq_some_iff_getElem]
    refine ⟨by simp, by simpa using hk, ?_⟩
    intro j hj
    have := hl ⟨j, by omega⟩ hj
    simpa using this
  simp [State.firstPressed, this]

end Sys2Proof.Machine
end

