-- ==== Sys2Proof/Laws/Cycle.lean ====
section
/-! SUPPORT. What one cycle can do, said once: halted, fetch fault, instruction fault, or an instruction and a tick. -/

namespace Sys2Proof.Machine

theorem step_halted {s : State} {f : FaultRecord} (h : s.fault = some f) : step s = .next s := by
  simp [step, cycle, State.halted, h]

theorem step_fetchFault {s : State} (h : s.fault = none) (hp : 4094 < s.pc.toNat) :
    step s = .next (s.snapshot.latch ⟨.fetchOutOfRange, s.pc⟩) := by
  have : s.snapshot.readWord s.snapshot.pc.toNat = _ := readWord_error hp
  simp [step, cycle, State.halted, h, runInstruction, State.fetch, readWord_error hp, State.raise]

theorem entered_eq (s : State) : s.entered = (s.snapshot.setIr s.fetchedWord).setPc (s.pc + 2) := rfl

/-- A cycle that fetches runs the instruction from the entered state and settles. -/
theorem step_fetches {s : State} {i : Instr} (h : s.Fetches i) : step s = settle s.snapshot (exec i s.entered) := by
  obtain ⟨hf, hp, rfl⟩ := h
  have hr : s.snapshot.readWord s.snapshot.pc.toNat = .ok s.fetchedWord := readWord_ok hp
  simp only [step, cycle, State.halted, hf, Option.isSome_none, Bool.false_eq_true, if_false, runInstruction,
    State.fetch, hr]
  rfl

/-- Everything a step that answers a next state can have done. -/
theorem step_cases {s t : State} (h : step s = .next t) :
    (s.fault ≠ none ∧ t = s) ∨
    (s.fault = none ∧ 4094 < s.pc.toNat ∧ t = s.snapshot.latch ⟨.fetchOutOfRange, s.pc⟩) ∨
    ∃ i u, s.Fetches i ∧ exec i s.entered = .next u ∧
      ((u.fault = none ∧ t = u.tick) ∨ ∃ f, u.fault = some f ∧ t = s.snapshot.latch f) := by
  rcases hf : s.fault with _ | f
  · rcases Nat.lt_or_ge 4094 s.pc.toNat with hp | hp
    · rw [step_fetchFault hf hp] at h
      exact .inr (.inl ⟨rfl, hp, by injection h with h; exact h.symm⟩)
    · refine .inr (.inr ⟨decode s.fetchedWord, ?_⟩)
      have hF : s.Fetches (decode s.fetchedWord) := ⟨hf, hp, rfl⟩
      rw [step_fetches hF] at h
      rcases he : exec (decode s.fetchedWord) s.entered with u | e | e
      · refine ⟨u, hF, rfl, ?_⟩
        rw [he] at h
        simp only [settle] at h
        rcases hu : u.fault with _ | f
        · rw [hu] at h; injection h with h; exact .inl ⟨rfl, h.symm⟩
        · rw [hu] at h; injection h with h; exact .inr ⟨f, rfl, h.symm⟩
      · rw [he] at h; cases h
      · rw [he] at h; cases h
  · rw [step_halted hf] at h
    exact .inl ⟨by simp, by injection h with h; exact h.symm⟩

/-! ## Runs -/

@[simp] theorem run_zero (s : State) : Host.Core.run core 0 s = .next s := rfl

theorem run_succ_next {s u : State} (n : Nat) (h : step s = .next u) :
    Host.Core.run core (n + 1) s = Host.Core.run core n u := by
  have h' : core.step s = .next u := h
  simp only [Host.Core.run, h']

/-- A run of one cycle more begins with a step. -/
theorem run_succ_cases {s t : State} {n : Nat} (h : Host.Core.run core (n + 1) s = .next t) :
    ∃ u, step s = .next u ∧ Host.Core.run core n u = .next t := by
  rcases hs : step s with u | e | e
  · exact ⟨u, rfl, by rwa [run_succ_next n hs] at h⟩
  · have hs' : core.step s = .fault e := hs
    simp only [Host.Core.run, hs'] at h
    cases h
  · have hs' : core.step s = .refused e := hs
    simp only [Host.Core.run, hs'] at h
    cases h

/-- A run of n + m cycles is a run of m after a run of n. -/
theorem run_add {s t : State} {n : Nat} (m : Nat) (h : Host.Core.run core n s = .next t) :
    Host.Core.run core (n + m) s = Host.Core.run core m t := by
  induction n generalizing s with
  | zero => injection h with h; rw [Nat.zero_add, h]
  | succ n ih =>
    obtain ⟨u, hu, hr⟩ := run_succ_cases h
    rw [Nat.add_right_comm, run_succ_next _ hu, ih hr]

end Sys2Proof.Machine
end

