-- ==== Sys2Proof/Laws/Display.lean ====
section
/-! SUPPORT. What drawing does to each pixel: a sprite toggles the cells its set bits land on, each once, and the
collision flag says whether one of them was on. -/

namespace Sys2Proof.Machine

@[simp] theorem pixel_clearFb (px : Fin 64) (py : Fin 32) : pixel clearFb px py = false := by
  simp [pixel, clearFb]

theorem pixel_togglePixel (fb : Framebuffer) (cx px : Fin 64) (cy py : Fin 32) :
    pixel (togglePixel fb cx cy) px py = (pixel fb px py ^^ decide ((cx, cy) = (px, py))) := by
  simp only [pixel, togglePixel, Prod.mk.injEq, Fin.getElem_fin]
  by_cases hx : cx = px
  · subst hx
    by_cases hy : cy = py
    · subst hy; simp
    · have : cy.val ≠ py.val := fun e => hy (Fin.ext e)
      simp [hy, Vector.getElem_set_ne, this]
  · have : cx.val ≠ px.val := fun e => hx (Fin.ext e)
    simp [hx, Vector.getElem_set_ne, this]

/-- Two framebuffers alike in every pixel are equal. -/
theorem fb_ext {fb fb' : Framebuffer} (h : ∀ px py, pixel fb px py = pixel fb' px py) : fb = fb' := by
  apply Vector.ext
  intro i hi
  apply Vector.ext
  intro j hj
  exact h ⟨i, hi⟩ ⟨j, hj⟩

theorem landing_eq_some {edge : Config.DrawEdge} {xpos ypos r c : Nat} {px : Fin 64} {py : Fin 32} :
    landing edge (xpos + c) (ypos + r) = some (px, py) ↔ LandsOn edge xpos ypos r c px py := by
  cases edge with
  | clip =>
    simp only [landing, LandsOn]
    split
    · simp [Fin.ext_iff]
    · next h =>
      simp only [reduceCtorEq, false_iff]
      rintro ⟨h1, h2⟩
      exact h ⟨by omega, by omega⟩
  | wrap => simp [landing, LandsOn, Fin.ext_iff, Fin.ofNat]

/-- One cell toggled, its prior state kept in the flag. -/
def hitCell (d : Drawing) (cell : Fin 64 × Fin 32) : Drawing :=
  ⟨togglePixel d.fb cell.1 cell.2, d.hit || pixel d.fb cell.1 cell.2⟩

/-- The cells the set bits of one row land on, left to right. -/
def rowCells (edge : Config.DrawEdge) (xpos py : Nat) (row : Byte) : List (Fin 64 × Fin 32) :=
  (List.range 8).filterMap fun c => if c < 8 ∧ spriteBit row c = true then landing edge (xpos + c) py else none

/-- The cells of a sprite, row by row. -/
def spriteCells (edge : Config.DrawEdge) (xpos : Nat) : Nat → List Byte → List (Fin 64 × Fin 32)
  | _, [] => []
  | py, row :: rest => rowCells edge xpos py row ++ spriteCells edge xpos (py + 1) rest

theorem drawRow_eq (edge : Config.DrawEdge) (xpos py : Nat) (row : Byte) (d : Drawing) :
    drawRow edge xpos py row d = (rowCells edge xpos py row).foldl hitCell d := by
  rw [drawRow, rowCells, List.foldl_filterMap]
  apply List.foldl_ext
  intro d c hc
  have hc8 : c < 8 := by simpa using hc
  by_cases hb : spriteBit row c = true
  · simp only [hb, hc8, and_self, if_true, drawBit]
    rcases landing edge (xpos + c) py with _ | ⟨cx, cy⟩ <;> rfl
  · simp [hb]

theorem drawRows_eq (edge : Config.DrawEdge) (xpos py : Nat) (rows : List Byte) (d : Drawing) :
    drawRows edge xpos py rows d = (spriteCells edge xpos py rows).foldl hitCell d := by
  induction rows generalizing py d with
  | nil => rfl
  | cons row rest ih => rw [drawRows, spriteCells, List.foldl_append, ih, drawRow_eq]

/-- Cells toggled one after the other, none twice. -/
theorem foldl_hitCell {cells : List (Fin 64 × Fin 32)} (hn : cells.Nodup) (d : Drawing) :
    (∀ px py, pixel (cells.foldl hitCell d).fb px py = (pixel d.fb px py ^^ decide ((px, py) ∈ cells))) ∧
    ((cells.foldl hitCell d).hit = true ↔
      (d.hit = true ∨ ∃ px py, (px, py) ∈ cells ∧ pixel d.fb px py = true)) := by
  induction cells generalizing d with
  | nil => simp
  | cons cell rest ih =>
    obtain ⟨cx, cy⟩ := cell
    obtain ⟨hnot, hrest⟩ := List.nodup_cons.mp hn
    obtain ⟨ihp, ihh⟩ := ih hrest (hitCell d (cx, cy))
    refine ⟨fun px py => ?_, ?_⟩
    · rw [List.foldl_cons, ihp]
      simp only [hitCell, pixel_togglePixel]
      by_cases he : (cx, cy) = (px, py)
      · have : (px, py) ∉ rest := by rw [← he]; exact hnot
        simp [he, this]
      · have he' : ¬ (px, py) = (cx, cy) := fun e => he e.symm
        simp only [he, decide_false, Bool.xor_false, List.mem_cons, he', false_or]
    · rw [List.foldl_cons, ihh]
      constructor
      · rintro (h | ⟨px, py, hm, hp⟩)
        · simp only [hitCell, Bool.or_eq_true] at h
          rcases h with h | h
          · exact .inl h
          · exact .inr ⟨cx, cy, by simp, h⟩
        · have he : ¬ (cx, cy) = (px, py) := fun e => hnot (by rw [e]; exact hm)
          simp only [hitCell, pixel_togglePixel, he, decide_false, Bool.xor_false] at hp
          exact .inr ⟨px, py, by simp [hm], hp⟩
      · rintro (h | ⟨px, py, hm, hp⟩)
        · exact .inl (by simp [hitCell, h])
        · rcases List.mem_cons.mp hm with he | hm
          · obtain ⟨rfl, rfl⟩ := Prod.mk.inj he
            exact .inl (by simp [hitCell, hp])
          · have he : ¬ (cx, cy) = (px, py) := fun e => hnot (by rw [e]; exact hm)
            refine .inr ⟨px, py, hm, ?_⟩
            simp only [hitCell, pixel_togglePixel, he, decide_false, Bool.xor_false]
            exact hp

theorem mem_rowCells {edge : Config.DrawEdge} {xpos ypos r : Nat} {row : Byte} {px : Fin 64} {py : Fin 32} :
    (px, py) ∈ rowCells edge xpos (ypos + r) row ↔
      ∃ c, c < 8 ∧ row.getLsbD (7 - c) = true ∧ LandsOn edge xpos ypos r c px py := by
  simp only [rowCells, List.mem_filterMap, List.mem_range]
  constructor
  · rintro ⟨c, hc, h⟩
    split at h
    · next hb => exact ⟨c, hc, hb.2, landing_eq_some.mp h⟩
    · cases h
  · rintro ⟨c, hc, hb, hl⟩
    exact ⟨c, hc, by rw [if_pos ⟨hc, hb⟩]; exact landing_eq_some.mpr hl⟩

theorem mem_spriteCells {edge : Config.DrawEdge} {xpos ypos k : Nat} {rows : List Byte} {px : Fin 64} {py : Fin 32} :
    (px, py) ∈ spriteCells edge xpos (ypos + k) rows ↔
      ∃ r c row, rows[r]? = some row ∧ c < 8 ∧ row.getLsbD (7 - c) = true ∧ LandsOn edge xpos ypos (k + r) c px py := by
  induction rows generalizing k with
  | nil => simp [spriteCells]
  | cons row rest ih =>
    rw [spriteCells, List.mem_append, mem_rowCells, Nat.add_assoc, ih]
    constructor
    · rintro (⟨c, hc, hb, hl⟩ | ⟨r, c, row', hr, hc, hb, hl⟩)
      · exact ⟨0, c, row, rfl, hc, hb, hl⟩
      · exact ⟨r + 1, c, row', by simpa using hr, hc, hb, by rwa [← Nat.add_assoc, Nat.add_right_comm]⟩
    · rintro ⟨r, c, row', hr, hc, hb, hl⟩
      cases r with
      | zero => simp at hr; subst hr; exact .inl ⟨c, hc, hb, hl⟩
      | succ r =>
        exact .inr ⟨r, c, row', by simpa using hr, hc, hb, by rwa [← Nat.add_assoc, Nat.add_right_comm] at hl⟩

/-- No two bits of a sprite of at most 32 rows land on one pixel. -/
theorem landsOn_injective {edge : Config.DrawEdge} {xpos ypos r r' c c' : Nat} {px : Fin 64} {py : Fin 32}
    (hr : r < r' + 32) (hr' : r' < r + 32) (hc : c < 8) (hc' : c' < 8)
    (h : LandsOn edge xpos ypos r c px py) (h' : LandsOn edge xpos ypos r' c' px py) : r = r' ∧ c = c' := by
  cases edge <;> simp only [LandsOn] at h h' <;> omega

theorem nodup_rowCells (edge : Config.DrawEdge) (xpos ypos r : Nat) (row : Byte) :
    (rowCells edge xpos (ypos + r) row).Nodup := by
  apply List.Nodup.filterMap _ List.nodup_range
  rintro c c' ⟨px, py⟩ h h'
  simp only [Option.mem_def] at h h'
  split at h
  · next hc =>
    split at h'
    · next hc' =>
      exact (landsOn_injective (by omega) (by omega) hc.1 hc'.1 (landing_eq_some.mp h) (landing_eq_some.mp h')).2
    · cases h'
  · cases h

theorem nodup_spriteCells {edge : Config.DrawEdge} {xpos ypos k : Nat} {rows : List Byte} (h : rows.length ≤ 32) :
    (spriteCells edge xpos (ypos + k) rows).Nodup := by
  induction rows generalizing k with
  | nil => exact List.nodup_nil
  | cons row rest ih =>
    simp only [List.length_cons] at h
    rw [spriteCells]
    refine List.nodup_append.mpr ⟨nodup_rowCells .., ?_, ?_⟩
    · rw [Nat.add_assoc]; exact ih (by omega)
    · rintro ⟨px, py⟩ h1 ⟨px', py'⟩ h2 e
      obtain ⟨rfl, rfl⟩ := Prod.mk.inj e
      rw [Nat.add_assoc, mem_spriteCells] at h2
      rw [mem_rowCells] at h1
      obtain ⟨c, hc, -, hl⟩ := h1
      obtain ⟨r', c', row', hr', hc', -, hl'⟩ := h2
      have : r' < rest.length := by
        rcases Nat.lt_or_ge r' rest.length with g | g
        · exact g
        · simp [List.getElem?_eq_none g] at hr'
      have := (landsOn_injective (by omega) (by omega) hc hc' hl hl').1
      omega

/-- What `drawSprite` does, said once. -/
theorem drawSprite_spec {edge : Config.DrawEdge} {xpos ypos : Nat} {rows : List Byte} (fb : Framebuffer)
    (h : rows.length ≤ 32) :
    (∀ px py, pixel (drawSprite edge xpos ypos rows fb).fb px py =
      (pixel fb px py ^^ decide ((px, py) ∈ spriteCells edge xpos ypos rows))) ∧
    ((drawSprite edge xpos ypos rows fb).hit = true ↔
      ∃ px py, (px, py) ∈ spriteCells edge xpos ypos rows ∧ pixel fb px py = true) := by
  have hn : (spriteCells edge xpos ypos rows).Nodup := nodup_spriteCells (k := 0) h
  have := foldl_hitCell hn ⟨fb, false⟩
  rw [← drawRows_eq] at this
  simpa [drawSprite] using this

/-- The cells of the sprite that `DRW` reads are the pixels it covers. -/
theorem mem_spriteCells_bytesAt {edge : Config.DrawEdge} {s : State} {x y : RegIdx} {n : Nat} {px : Fin 64}
    {py : Fin 32} :
    (px, py) ∈ spriteCells edge (spriteX (s.getV x)) (spriteY (s.getV y)) (s.bytesAt s.base n) ↔
      s.Covers edge x y n px py := by
  have := @mem_spriteCells edge (spriteX (s.getV x)) (spriteY (s.getV y)) 0 (s.bytesAt s.base n) px py
  rw [Nat.add_zero] at this
  rw [this]
  simp only [getElem?_bytesAt, Nat.zero_add, State.Covers, spriteX, spriteY, State.base]
  constructor
  · rintro ⟨r, c, row, hr, hc, hb, hl⟩
    split at hr
    · next h => injection hr with hr; subst hr; exact ⟨r, c, h, hc, hb, hl⟩
    · cases hr
  · rintro ⟨r, c, h, hc, hb, hl⟩
    exact ⟨r, c, _, by rw [if_pos h], hc, hb, hl⟩

end Sys2Proof.Machine
end

