-- ==== Sys2Proof/Laws/Exec.lean ====
section
/-! SUPPORT. For each instruction that does more than one thing, what it can do, said once: "if it answers next t, then
one of these cases holds". The others answer next in one way, by rfl. -/

namespace Sys2Proof.Machine

theorem raise_eq_next {s t : State} {c : Cause} {info : Word} (h : s.raise c info = .next t) :
    t = s.latch ⟨c, info⟩ := by
  injection h with h; exact h.symm

theorem execRet_cases {s t : State} (h : execRet s = .next t) :
    (s.sp = 0 ∧ t = s.latch ⟨.stackUnderflow, 0⟩) ∨
    ∃ k : Fin 16, s.sp.toNat = k.val + 1 ∧ t = ({ s with sp := s.sp - 1 } : State).setPc s.stack[k] := by
  rcases Nat.lt_or_ge 16 s.sp.toNat with hb | hb
  · simp [execRet, pop_noSlot hb] at h
  · by_cases h0 : s.sp = 0
    · simp only [execRet, pop_empty h0] at h
      exact .inl ⟨h0, raise_eq_next h⟩
    · have hp : 0 < s.sp.toNat := by
        rcases Nat.eq_zero_or_pos s.sp.toNat with e | e
        · exact absurd (BitVec.eq_of_toNat_eq (by simpa using e)) h0
        · exact e
      simp only [execRet, pop_value hp hb] at h
      injection h with h
      exact .inr ⟨⟨s.sp.toNat - 1, by omega⟩, by simp only; omega, h.symm⟩

theorem execCallNnn_cases {nnn : Addr12} {s t : State} (h : execCallNnn nnn s = .next t) :
    (16 ≤ s.sp.toNat ∧ t = s.latch ⟨.stackOverflow, s.sp.setWidth 16⟩) ∨
    (s.sp.toNat < 16 ∧ t = ({ s with stack := s.stack.setIfInBounds s.sp.toNat s.pc, sp := s.sp + 1 } : State).setPc
      (addrWord nnn)) := by
  rcases Nat.lt_or_ge s.sp.toNat 16 with hb | hb
  · simp only [execCallNnn, push_ok s.pc hb] at h
    injection h with h
    exact .inr ⟨hb, h.symm⟩
  · simp only [execCallNnn, push_full s.pc hb] at h
    exact .inl ⟨hb, raise_eq_next h⟩

theorem execSkpVx_cases {x : RegIdx} {s t : State} (h : execSkpVx x s = .next t) :
    (15 < (s.getV x).toNat ∧ t = s.latch ⟨.keyIndexOutOfRange, byteWord (s.getV x)⟩) ∨
    ((s.getV x).toNat ≤ 15 ∧ ∃ b, t = s.skipIf b) := by
  rcases Nat.lt_or_ge 15 (s.getV x).toNat with hb | hb
  · simp only [execSkpVx, keyAt_none hb] at h
    exact .inl ⟨hb, raise_eq_next h⟩
  · simp only [execSkpVx, keyAt_some hb] at h
    injection h with h
    exact .inr ⟨hb, _, h.symm⟩

theorem execSknpVx_cases {x : RegIdx} {s t : State} (h : execSknpVx x s = .next t) :
    (15 < (s.getV x).toNat ∧ t = s.latch ⟨.keyIndexOutOfRange, byteWord (s.getV x)⟩) ∨
    ((s.getV x).toNat ≤ 15 ∧ ∃ b, t = s.skipIf b) := by
  rcases Nat.lt_or_ge 15 (s.getV x).toNat with hb | hb
  · simp only [execSknpVx, keyAt_none hb] at h
    exact .inl ⟨hb, raise_eq_next h⟩
  · simp only [execSknpVx, keyAt_some hb] at h
    injection h with h
    exact .inr ⟨hb, _, h.symm⟩

theorem execLdVxK_cases {x : RegIdx} {s t : State} (h : execLdVxK x s = .next t) :
    t = s.setPc (s.pc - 2) ∨ ∃ k, t = s.setV x k := by
  simp only [execLdVxK] at h
  split at h <;> injection h with h
  · exact .inl h.symm
  · exact .inr ⟨_, h.symm⟩

theorem execLdBVx_cases {x : RegIdx} {s t : State} (h : execLdBVx x s = .next t) :
    (4095 < s.base + 2 ∧ t = s.latch ⟨.memWriteOutOfRange, BitVec.ofNat 16 (max s.base 4096)⟩) ∨
    (s.base + 2 ≤ 4095 ∧ t = s.setBytes s.base (decimalDigits (s.getV x))) := by
  rcases Nat.lt_or_ge 4095 (s.base + 2) with hb | hb
  · simp only [execLdBVx, writeRange_error (s := s) (base := s.base) (bytes := decimalDigits (s.getV x))
      (by rw [length_decimalDigits]; omega)] at h
    exact .inl ⟨hb, raise_eq_next h⟩
  · simp only [execLdBVx, writeRange_ok (s := s) (base := s.base) (bytes := decimalDigits (s.getV x))
      (by rw [length_decimalDigits]; omega)] at h
    injection h with h
    exact .inr ⟨hb, h.symm⟩

theorem execLdMemVx_cases {x : RegIdx} {s t : State} (h : execLdMemVx x s = .next t) :
    (4095 < s.base + x.val ∧ t = s.latch ⟨.memWriteOutOfRange, BitVec.ofNat 16 (max s.base 4096)⟩) ∨
    (s.base + x.val ≤ 4095 ∧ t = s.setBytes s.base (s.regsUpTo x)) := by
  rcases Nat.lt_or_ge 4095 (s.base + x.val) with hb | hb
  · simp only [execLdMemVx, writeRange_error (s := s) (base := s.base) (bytes := s.regsUpTo x)
      (by rw [length_regsUpTo]; omega)] at h
    exact .inl ⟨hb, raise_eq_next h⟩
  · simp only [execLdMemVx, writeRange_ok (s := s) (base := s.base) (bytes := s.regsUpTo x)
      (by rw [length_regsUpTo]; omega)] at h
    injection h with h
    exact .inr ⟨hb, h.symm⟩

theorem execLdVxMem_cases {x : RegIdx} {s t : State} (h : execLdVxMem x s = .next t) :
    (4095 < s.base + x.val ∧ t = s.latch ⟨.memReadOutOfRange, BitVec.ofNat 16 (max s.base 4096)⟩) ∨
    (s.base + x.val ≤ 4095 ∧ t = s.setAllV (s.withRegs (s.bytesAt s.base (x.val + 1)))) := by
  rcases Nat.lt_or_ge 4095 (s.base + x.val) with hb | hb
  · simp only [execLdVxMem, readRange_error (s := s) (base := s.base) (count := x.val + 1) (by omega)] at h
    exact .inl ⟨hb, raise_eq_next h⟩
  · simp only [execLdVxMem, readRange_ok (s := s) (base := s.base) (count := x.val + 1) (by omega)] at h
    injection h with h
    exact .inr ⟨hb, h.symm⟩

theorem drawWith_cases {edge : Config.DrawEdge} {x y : RegIdx} {n : Nibble} {s t : State}
    (h : s.drawWith edge x y n = .next t) :
    (n ≠ 0 ∧ 4095 < s.base + n.toNat - 1 ∧ t = s.latch ⟨.memReadOutOfRange, BitVec.ofNat 16 (max s.base 4096)⟩) ∨
    ((n.toNat = 0 ∨ s.base + n.toNat - 1 ≤ 4095) ∧ ∃ d : Drawing, t = (s.setFb d.fb).setV VF (flagByte d.hit)) := by
  by_cases hb : n.toNat = 0 ∨ s.base + n.toNat ≤ 4096
  · simp only [State.drawWith, readRange_ok (s := s) hb] at h
    injection h with h
    exact .inr ⟨by omega, _, h.symm⟩
  · simp only [State.drawWith, readRange_error (s := s) hb] at h
    refine .inl ⟨?_, by omega, raise_eq_next h⟩
    rintro rfl
    exact hb (.inl rfl)

/-- A store of bytes changes nothing but those bytes. -/
theorem onlyMem_setBytes {s : State} {a : Nat} {bytes : List Byte} (hm : s.memWf = true)
    (h : a + bytes.length ≤ Config.memSize) : OnlyMem a bytes.length s (s.setBytes a bytes) := by
  refine ⟨rfl, fun b hb => ?_⟩
  rw [byteAt_setBytes hm h]
  split
  · rw [List.getElem?_eq_none (by omega)]; rfl
  · rfl

/-- Everything an instruction can do, by the state it writes: to show a fact of every next state, show it of each kind
of update (a latched fault, V registers, `pc`, `I`, the stack, memory, the framebuffer, a timer, a draw). -/
theorem exec_next_ind {P : State → Prop} {i : Instr} {s t : State} (h : exec i s = .next t)
    (hlatch : ∀ f, P (s.latch f)) (hV : ∀ v, P (s.setAllV v))
    (hpc : ∀ w, i ≠ .ret → (∀ n, i ≠ .callNnn n) → P (s.setPc w))
    (hidx : ∀ w, ((∃ nnn, i = .ldINnn nnn) ∨ ∃ x, i = .addIVx x ∨ i = .ldFVx x) → P (s.setIndex w))
    (hret : ∀ b w, i = .ret → P (({ s with sp := b } : State).setPc w))
    (hcall : ∀ b st w, (∃ nnn, i = .callNnn nnn) → P (({ s with stack := st, sp := b } : State).setPc w))
    (hmem : ∀ m, (∃ x, i = .ldBVx x ∨ i = .ldMemVx x) → P (s.setMem m))
    (hfb : ∀ fb v, (i = .cls ∨ ∃ x y n, i = .drwVxVyN x y n) → P ((s.setFb fb).setAllV v))
    (hdt : ∀ b, (∃ x, i = .ldDtVx x) → P (s.setDt b))
    (hst : ∀ b, (∃ x, i = .ldStVx x) → P (s.setSt b))
    (hrnd : ∀ v, (∃ x kk, i = .rndVxKk x kk) → P (s.drawn.setAllV v)) : P t := by
  have hid : P s := hV s.v
  cases i with
  | ret => rcases execRet_cases h with ⟨_, rfl⟩ | ⟨k, _, rfl⟩
           · exact hlatch _
           · exact hret _ _ rfl
  | callNnn nnn => rcases execCallNnn_cases h with ⟨_, rfl⟩ | ⟨_, rfl⟩
                   · exact hlatch _
                   · exact hcall _ _ _ ⟨_, rfl⟩
  | skpVx x => rcases execSkpVx_cases h with ⟨_, rfl⟩ | ⟨_, b, rfl⟩
               · exact hlatch _
               · exact hpc _ (by simp) (by simp)
  | sknpVx x => rcases execSknpVx_cases h with ⟨_, rfl⟩ | ⟨_, b, rfl⟩
                · exact hlatch _
                · exact hpc _ (by simp) (by simp)
  | ldVxK x => rcases execLdVxK_cases h with rfl | ⟨k, rfl⟩
               · exact hpc _ (by simp) (by simp)
               · exact hV _
  | ldBVx x => rcases execLdBVx_cases h with ⟨_, rfl⟩ | ⟨_, rfl⟩
               · exact hlatch _
               · exact hmem _ ⟨_, .inl rfl⟩
  | ldMemVx x => rcases execLdMemVx_cases h with ⟨_, rfl⟩ | ⟨_, rfl⟩
                 · exact hlatch _
                 · exact hmem _ ⟨_, .inr rfl⟩
  | ldVxMem x => rcases execLdVxMem_cases h with ⟨_, rfl⟩ | ⟨_, rfl⟩
                 · exact hlatch _
                 · exact hV _
  | drwVxVyN x y n => rcases drawWith_cases h with ⟨_, _, rfl⟩ | ⟨_, d, rfl⟩
                      · exact hlatch _
                      · exact hfb _ _ (.inr ⟨_, _, _, rfl⟩)
  | cls => injection h with h; subst h; exact (hfb clearFb s.v (.inl rfl) : _)
  | jpNnn => injection h with h; subst h; exact hpc _ (by simp) (by simp)
  | jpV0Nnn => injection h with h; subst h; exact hpc _ (by simp) (by simp)
  | seVxKk => injection h with h; subst h; exact hpc _ (by simp) (by simp)
  | sneVxKk => injection h with h; subst h; exact hpc _ (by simp) (by simp)
  | seVxVy => injection h with h; subst h; exact hpc _ (by simp) (by simp)
  | sneVxVy => injection h with h; subst h; exact hpc _ (by simp) (by simp)
  | ldINnn => injection h with h; subst h; exact hidx _ (.inl ⟨_, rfl⟩)
  | addIVx => injection h with h; subst h; exact hidx _ (.inr ⟨_, .inl rfl⟩)
  | ldFVx => injection h with h; subst h; exact hidx _ (.inr ⟨_, .inr rfl⟩)
  | ldDtVx => injection h with h; subst h; exact hdt _ ⟨_, rfl⟩
  | ldStVx => injection h with h; subst h; exact hst _ ⟨_, rfl⟩
  | rndVxKk => injection h with h; subst h; exact hrnd _ ⟨_, _, rfl⟩
  | nopGroup0 => injection h with h; subst h; exact hid
  | nopGroup8 => injection h with h; subst h; exact hid
  | nopGroupE => injection h with h; subst h; exact hid
  | nopGroupF => injection h with h; subst h; exact hid
  | _ => injection h with h; subst h; exact hV _

end Sys2Proof.Machine
end

