-- ==== Sys2Proof/Tests/Slice0.lean ====
section
/-! SUPPORT. Tests: words written out from the encodings of `30_encoding.md` R59, one-cycle tests whose expected values
are those of `95_test_vectors.md` part 2, and, for every obligation with hypotheses, a state that meets them. -/

namespace Sys2Proof.Tests

open Sys2Proof Sys2Proof.Machine

/-! ## Helpers -/

/-- The reset state with some V registers set. -/
def regs (l : List (RegIdx × Byte)) : State := l.foldl (fun s p => s.setV p.1 p.2) State.reset

/-- The answer is a next state that passes. -/
def after (r : Result) (p : State → Bool) : Bool :=
  match r with
  | .next t => p t
  | _ => false

/-- One cycle that runs the word at `pc`. -/
def cycleOf (w : Nat) (s : State) (p : State → Bool) : Bool := after (step (s.withFetchWord 16 w)) p

/-- The latch holds this cause and info. -/
def faultIs (c : Cause) (info : Word) (t : State) : Bool := t.fault == some ⟨c, info⟩

/-- A keypad with these keys pressed. -/
def keys (l : List Nat) : Keypad := Vector.ofFn fun k : Fin 16 => l.contains k.val

/-- The pixels of a list are on. -/
def allOn (l : List (Fin 64 × Fin 32)) (t : State) : Bool := l.all fun p => pixel t.fb p.1 p.2

/-- The pixels of a list are off. -/
def allOff (l : List (Fin 64 × Fin 32)) (t : State) : Bool := l.all fun p => !pixel t.fb p.1 p.2

/-! ## Well-formedness: a no-op with a mapped selector is refused -/

theorem test_wellFormed_refuses_cls_as_nop : (Instr.nopGroup0 0x0E0#12).wellFormed = false := by decide
theorem test_wellFormed_refuses_ret_as_nop : (Instr.nopGroup0 0x0EE#12).wellFormed = false := by decide
theorem test_wellFormed_refuses_add_as_nop : (Instr.nopGroup8 0x124#12).wellFormed = false := by decide
theorem test_wellFormed_refuses_skp_as_nop : (Instr.nopGroupE 0x19E#12).wellFormed = false := by decide
theorem test_wellFormed_refuses_ldVxMem_as_nop : (Instr.nopGroupF 0x265#12).wellFormed = false := by decide
theorem test_wellFormed_admits_nops :
    (Instr.nopGroup0 0x0E1#12).wellFormed = true ∧ (Instr.nopGroup8 0xFFD#12).wellFormed = true ∧
    (Instr.nopGroupE 0x100#12).wellFormed = true ∧ (Instr.nopGroupF 0x1FF#12).wellFormed = true := by decide

/-! ## Decoding: a word of every row of R59, and the vectors of 2.1 -/

theorem test_decode_rows_1_to_9 :
    decode 0x00E0#16 = .cls ∧ decode 0x00EE#16 = .ret ∧ decode 0x1ABC#16 = .jpNnn 0xABC#12 ∧
    decode 0x2ABC#16 = .callNnn 0xABC#12 ∧ decode 0x31FE#16 = .seVxKk 1 0xFE#8 ∧
    decode 0x4A2B#16 = .sneVxKk 10 0x2B#8 ∧ decode 0x5120#16 = .seVxVy 1 2 ∧
    decode 0x6A2B#16 = .ldVxKk 10 0x2B#8 ∧ decode 0x71FF#16 = .addVxKk 1 0xFF#8 := by decide

theorem test_decode_rows_10_to_18 :
    decode 0x8120#16 = .ldVxVy 1 2 ∧ decode 0x8121#16 = .orVxVy 1 2 ∧ decode 0x8122#16 = .andVxVy 1 2 ∧
    decode 0x8123#16 = .xorVxVy 1 2 ∧ decode 0x8124#16 = .addVxVy 1 2 ∧ decode 0x8125#16 = .subVxVy 1 2 ∧
    decode 0x8126#16 = .shrVx 1 ∧ decode 0x8127#16 = .subnVxVy 1 2 ∧ decode 0x812E#16 = .shlVx 1 := by decide

theorem test_decode_rows_19_to_25 :
    decode 0x912F#16 = .sneVxVy 1 2 ∧ decode 0xA123#16 = .ldINnn 0x123#12 ∧ decode 0xB300#16 = .jpV0Nnn 0x300#12 ∧
    decode 0xC10F#16 = .rndVxKk 1 0x0F#8 ∧ decode 0xD125#16 = .drwVxVyN 1 2 5#4 ∧ decode 0xE19E#16 = .skpVx 1 ∧
    decode 0xE1A1#16 = .sknpVx 1 := by decide

theorem test_decode_rows_26_to_34 :
    decode 0xF107#16 = .ldVxDt 1 ∧ decode 0xF20A#16 = .ldVxK 2 ∧ decode 0xF315#16 = .ldDtVx 3 ∧
    decode 0xF418#16 = .ldStVx 4 ∧ decode 0xF51E#16 = .addIVx 5 ∧ decode 0xF629#16 = .ldFVx 6 ∧
    decode 0xF733#16 = .ldBVx 7 ∧ decode 0xFF55#16 = .ldMemVx 15 ∧ decode 0xF265#16 = .ldVxMem 2 := by decide

theorem test_decode_rows_35_to_38 :
    decode 0x00E1#16 = .nopGroup0 0x0E1#12 ∧ decode 0x0FFF#16 = .nopGroup0 0xFFF#12 ∧
    decode 0x8128#16 = .nopGroup8 0x128#12 ∧ decode 0x8FFD#16 = .nopGroup8 0xFFD#12 ∧
    decode 0xE100#16 = .nopGroupE 0x100#12 ∧ decode 0xE19F#16 = .nopGroupE 0x19F#12 ∧
    decode 0xF175#16 = .nopGroupF 0x175#12 ∧ decode 0xF000#16 = .nopGroupF 0x000#12 ∧
    decode 0xF01F#16 = .nopGroupF 0x01F#12 := by decide

theorem test_decode_ignored_bits :
    decode 0x0000#16 = .cls ∧ decode 0x0230#16 = .cls ∧ decode 0x0FF0#16 = .cls ∧ decode 0x012E#16 = .ret ∧
    decode 0x512F#16 = .seVxVy 1 2 ∧ decode 0x81F6#16 = .shrVx 1 ∧ decode 0xE10E#16 = .skpVx 1 ∧
    decode 0xE1FE#16 = .skpVx 1 ∧ decode 0xE101#16 = .sknpVx 1 := by decide

theorem test_decodeBytes_is_big_endian :
    decodeBytes [0x6A#8, 0x2B#8, 0x12#8] = .ok (.ldVxKk 10 0x2B#8, [0x12#8]) := by rfl

theorem test_decodeBytes_refuses_one_byte : decodeBytes [0x6A#8] = .error .truncated := by rfl

theorem test_decodeTableWord :
    decodeTableWord 16 0xD125 = some (.drwVxVyN 1 2 5#4) ∧ decodeTableWord 16 0x10000 = none := by decide

theorem test_encode_canonical :
    encode .cls = 0x00E0#16 ∧ encode .ret = 0x00EE#16 ∧ encode (.skpVx 1) = 0xE19E#16 ∧
    encode (.shlVx 1) = 0x810E#16 ∧ encode (.drwVxVyN 1 2 5#4) = 0xD125#16 := by decide

/-! ## Reset and load (2.10) -/

theorem test_reset_memory :
    State.reset.byteAt 0x4F = 0 ∧ State.reset.byteAt 0x50 = 0xF0 ∧ State.reset.byteAt 0x9B = 0xF0 ∧
    State.reset.byteAt 0x9F = 0x80 ∧ State.reset.byteAt 0xA0 = 0 ∧ State.reset.byteAt 0x200 = 0 := by decide

theorem test_boot_scenario_first_cycles :
    after (boot Config.defaults [0x00, 0xE0, 0x6A, 0x2B, 0xA1, 0x23]) (fun s => after (Host.Core.run core 3 s) fun t =>
      t.getV 10 == 0x2B && t.index == 0x0123 && t.pc == 0x0206 && t.ir == 0xA123 && allOff [(0, 0), (63, 31)] t) =
    true := by decide

theorem test_hostReset_erases_image_and_fault :
    let s := ((regs [(1, 9)]).withFetchWord 16 0x6A2B).latch ⟨.stackUnderflow, 0⟩
    s.hostReset.fault = none ∧ s.hostReset.mem = [] ∧ s.hostReset.getV 1 = 0 := by decide

/-! ## Other parameters (`00_scope.md` R5, R6) -/

/-- A machine with another load address and font base, whose sprites wrap. -/
def others : Config.Params := { Config.defaults with loadAddr := 0x300, fontBase := 0x100, drawEdge := .wrap }

theorem test_boot_with_other_parameters :
    after (boot others [0x6A, 0x2B]) (fun s => after (step s) fun t =>
      t.getV 10 == 0x2B && t.pc == 0x0302 && t.bytesAt 0x100 2 == [0xF0, 0x90] && t.byteAt 0x50 == 0) = true := by decide

theorem test_ldFVx_with_other_parameters :
    after (exec (.ldFVx 1) ((State.resetWith others).setV 1 0x1A)) (fun t => t.index == 0x0132) = true := by decide

/-! ## Fetch (2.2) -/

theorem test_fetch_at_the_last_word :
    cycleOf 0x6A2B { State.reset with pc := 0x0FFE } (fun t => t.getV 10 == 0x2B && t.pc == 0x1000 && t.ir == 0x6A2B) =
    true := by decide

theorem test_fetch_out_of_range :
    after (step { State.reset with pc := 0x0FFF, dt := 5 }) (fun t =>
      faultIs .fetchOutOfRange 0x0FFF t && t.pc == 0x0FFF && t.dt == 5 && t.ir == 0) = true := by decide

/-! ## Control transfer (2.3) -/

theorem test_jp : cycleOf 0x1FFF State.reset (fun t => t.pc == 0x0FFF && t.fault == none) = true := by decide

theorem test_call_sixteenth :
    cycleOf 0x2ABC { State.reset with sp := 15 } (fun t =>
      t.stack[15] == 0x0202 && t.stack[14] == 0 && t.sp == 16 && t.pc == 0x0ABC) = true := by decide

theorem test_call_overflow :
    cycleOf 0x2ABC { State.reset with sp := 16 } (fun t =>
      faultIs .stackOverflow 16 t && t.pc == 0x0200 && t.sp == 16) = true := by decide

theorem test_ret :
    cycleOf 0x012E { State.reset with sp := 2, stack := (Vector.replicate 16 0).set 1 0x0345 } (fun t =>
      t.pc == 0x0345 && t.sp == 1 && t.stack[1] == 0x0345) = true := by decide

theorem test_ret_underflow :
    cycleOf 0x00EE { State.reset with dt := 5 } (fun t =>
      faultIs .stackUnderflow 0 t && t.pc == 0x0200 && t.ir == 0 && t.dt == 5) = true := by decide

theorem test_seVxKk : cycleOf 0x3FFF (regs [(15, 0xFF)]) (·.pc == 0x0204) = true ∧
    cycleOf 0x3100 (regs [(1, 1)]) (·.pc == 0x0202) = true := by decide

theorem test_sneVxKk : cycleOf 0x4A2B (regs [(10, 0x2B)]) (·.pc == 0x0202) = true ∧
    cycleOf 0x4A2B State.reset (·.pc == 0x0204) = true := by decide

theorem test_seVxVy : cycleOf 0x5120 (regs [(1, 7), (2, 7)]) (·.pc == 0x0204) = true ∧
    cycleOf 0x5120 (regs [(1, 7), (2, 8)]) (·.pc == 0x0202) = true := by decide

theorem test_sneVxVy : cycleOf 0x9120 (regs [(1, 7), (2, 8)]) (·.pc == 0x0204) = true ∧
    cycleOf 0x9110 (regs [(1, 7)]) (·.pc == 0x0202) = true := by decide

theorem test_jpV0 : cycleOf 0xBFFF (regs [(0, 0xFF)]) (·.pc == 0x10FE) = true ∧
    cycleOf 0xB210 (regs [(2, 0x44)]) (·.pc == 0x0210) = true := by decide

/-! ## Registers (2.4) -/

theorem test_ldVxKk : cycleOf 0x6F07 State.reset (fun t => t.getV 15 == 7 && t.getV 14 == 0) = true := by decide

theorem test_addVxKk_has_no_flag :
    cycleOf 0x7002 (regs [(0, 0xFF), (15, 7)]) (fun t => t.getV 0 == 1 && t.getV 15 == 7) = true := by decide

theorem test_ldVxVy : cycleOf 0x8120 (regs [(1, 1), (2, 0x7E)]) (fun t => t.getV 1 == 0x7E && t.getV 2 == 0x7E) = true := by
  decide

theorem test_orVxVy :
    cycleOf 0x8121 (regs [(1, 0xF0), (2, 0x0F), (15, 9)]) (fun t => t.getV 1 == 0xFF && t.getV 15 == 9) = true := by decide

theorem test_andVxVy :
    cycleOf 0x8122 (regs [(1, 0xF0), (2, 0x3C), (15, 9)]) (fun t => t.getV 1 == 0x30 && t.getV 15 == 9) = true := by decide

theorem test_xorVxVy :
    cycleOf 0x8123 (regs [(1, 0xF0), (2, 0x3C), (15, 9)]) (fun t => t.getV 1 == 0xCC && t.getV 15 == 9) = true := by decide

theorem test_addVxVy_boundary :
    cycleOf 0x8014 (regs [(0, 0xFF), (1, 1)]) (fun t => t.getV 0 == 0 && t.getV 15 == 1) = true ∧
    cycleOf 0x8014 (regs [(0, 0xFF)]) (fun t => t.getV 0 == 0xFF && t.getV 15 == 0) = true := by decide

theorem test_addVxVy_flag_register :
    cycleOf 0x8F14 (regs [(15, 3), (1, 4)]) (fun t => t.getV 15 == 0) = true ∧
    cycleOf 0x80F4 (regs [(0, 1), (15, 0xFF)]) (fun t => t.getV 0 == 0 && t.getV 15 == 1) = true := by decide

theorem test_subVxVy_is_strict :
    cycleOf 0x8015 (regs [(0, 5), (1, 5), (15, 7)]) (fun t => t.getV 0 == 0 && t.getV 15 == 0) = true ∧
    cycleOf 0x8015 (regs [(0, 1), (1, 0x10)]) (fun t => t.getV 0 == 0xF1 && t.getV 15 == 0) = true := by decide

theorem test_subVxVy_flag_register :
    cycleOf 0x8F15 (regs [(15, 5), (1, 3)]) (fun t => t.getV 15 == 1) = true ∧
    cycleOf 0x80F5 (regs [(0, 9), (15, 1)]) (fun t => t.getV 0 == 8 && t.getV 15 == 1) = true := by decide

theorem test_shrVx :
    cycleOf 0x81F6 (regs [(1, 5), (15, 0xAA)]) (fun t => t.getV 1 == 2 && t.getV 15 == 1) = true ∧
    cycleOf 0x8F06 (regs [(15, 2)]) (fun t => t.getV 15 == 0) = true := by decide

theorem test_subnVxVy :
    cycleOf 0x8017 (regs [(0, 1), (1, 0x10)]) (fun t => t.getV 0 == 0x0F && t.getV 15 == 1) = true ∧
    cycleOf 0x8017 (regs [(0, 1)]) (fun t => t.getV 0 == 0xFF && t.getV 15 == 0) = true := by decide

theorem test_shlVx :
    cycleOf 0x810E (regs [(1, 0x81)]) (fun t => t.getV 1 == 2 && t.getV 15 == 1) = true ∧
    cycleOf 0x8F0E (regs [(15, 0x7F)]) (fun t => t.getV 15 == 0) = true := by decide

theorem test_rndVxKk :
    cycleOf 0xC10F { State.reset with randIn := [0xA7] } (fun t => t.getV 1 == 7 && t.randIn == []) = true := by decide

/-! ## Index register and memory (2.5) -/

theorem test_ldINnn : cycleOf 0xAFFF State.reset (·.index == 0x0FFF) = true := by decide

theorem test_addIVx_wraps_at_16_bits :
    cycleOf 0xF01E { regs [(0, 1), (15, 3)] with index := 0xFFFF } (fun t => t.index == 0 && t.getV 15 == 3) = true ∧
    cycleOf 0xF01E { regs [(0, 1)] with index := 0x0FFF } (fun t => t.index == 0x1000 && t.fault == none) = true := by
  decide

theorem test_ldFVx_masks : cycleOf 0xF029 (regs [(0, 0x1A)]) (·.index == 0x0082) = true ∧
    cycleOf 0xF029 (regs [(0, 0xFF)]) (·.index == 0x009B) = true := by decide

theorem test_ldBVx :
    cycleOf 0xF033 { regs [(0, 254)] with index := 0x300 } (fun t => t.bytesAt 0x300 4 == [2, 5, 4, 0]) = true ∧
    cycleOf 0xF033 { regs [(0, 123)] with index := 0xFFD } (fun t => t.bytesAt 0xFFD 3 == [1, 2, 3]) = true := by
  decide

theorem test_ldBVx_faults :
    cycleOf 0xF033 { regs [(0, 123)] with index := 0xFFE } (fun t =>
      faultIs .memWriteOutOfRange 0x1000 t && t.bytesAt 0xFFE 2 == [0, 0]) = true ∧
    cycleOf 0xF033 { regs [(0, 123)] with index := 0xFFFF } (faultIs .memWriteOutOfRange 0xFFFF) = true := by decide

theorem test_ldMemVx :
    cycleOf 0xF255 { regs [(0, 0x11), (1, 0x22), (2, 0x33), (3, 0x44)] with index := 0x400 } (fun t =>
      t.bytesAt 0x400 4 == [0x11, 0x22, 0x33, 0] && t.index == 0x400) = true := by decide

theorem test_ldMemVx_faults :
    cycleOf 0xF155 { regs [(0, 0xAB)] with index := 0xFFF } (fun t =>
      faultIs .memWriteOutOfRange 0x1000 t && t.byteAt 0xFFF == 0) = true := by decide

theorem test_ldVxMem_reads_the_font :
    cycleOf 0xF265 { regs [(5, 0x99)] with index := 0x50 } (fun t =>
      t.getV 0 == 0xF0 && t.getV 1 == 0x90 && t.getV 2 == 0x90 && t.getV 3 == 0 && t.getV 5 == 0x99 &&
      t.index == 0x50) = true := by decide

theorem test_ldVxMem_faults :
    cycleOf 0xF165 { regs [(0, 9)] with index := 0xFFF } (fun t =>
      faultIs .memReadOutOfRange 0x1000 t && t.getV 0 == 9) = true := by decide

/-- Writing the value an address holds after reset takes its entry out again. -/
theorem test_write_keeps_canonical_form :
    ((State.reset.setBytes 0x300 [7]).setBytes 0x300 [0]).mem = [] ∧ (State.reset.setBytes 0x50 [0xF0]).mem = [] ∧
    ((State.reset.setBytes 0x300 [7]).setBytes 0x51 [1]).mem = [(0x51, 1), (0x300, 7)] := by decide

/-! ## Display (2.6) -/

/-- V0, V1 as given, one sprite row at 0x300. -/
def spriteState (x y row : Byte) : State := ((regs [(0, x), (1, y)]).setIndex 0x300).setBytes 0x300 [row]

theorem test_cls :
    cycleOf 0x00E0 { regs [(15, 9)] with fb := togglePixel clearFb 5 5 } (fun t =>
      allOff [(5, 5)] t && t.getV 15 == 9) = true := by decide

/-- Origin taken modulo 64 and 32, bit 7 the first column, columns past the edge dropped (R111 to R113, by hand). -/
theorem test_drw_bit_order_origin_and_clip :
    cycleOf 0xD011 (spriteState 124 33 0x8F) (fun t =>
      allOn [(60, 1)] t && allOff [(61, 1), (63, 1), (0, 1), (3, 1), (60, 0)] t && t.getV 15 == 0) = true := by decide

theorem test_drawWith_wrap :
    after ((spriteState 60 0 0xFF).drawWith .wrap 0 1 1#4) (fun t =>
      allOn [(60, 0), (63, 0), (0, 0), (3, 0)] t && allOff [(4, 0), (59, 0)] t && t.getV 15 == 0) = true := by decide

theorem test_drw_collides :
    cycleOf 0xD011 { spriteState 0 3 0x18 with fb := togglePixel (togglePixel clearFb 2 3) 3 3 } (fun t =>
      allOn [(2, 3), (4, 3)] t && allOff [(3, 3)] t && t.getV 15 == 1) = true := by decide

theorem test_readRange_edges :
    State.reset.readRange 0xFFFF 0 = .ok [] ∧ State.reset.readRange 0xFFB 5 = .ok [0, 0, 0, 0, 0] ∧
    State.reset.readRange 0xFFC 5 = .error ⟨.memReadOutOfRange, 0x1000⟩ := ⟨rfl, rfl, rfl⟩

/-! ## Keypad and timers (2.7, 2.8) -/

theorem test_skpVx :
    cycleOf 0xE19E { regs [(1, 15)] with keysIn := [keys [15]] } (·.pc == 0x0204) = true ∧
    cycleOf 0xE19E { regs [(1, 7)] with key := keys [7], keysIn := [keys []] } (·.pc == 0x0202) = true := by decide

theorem test_skpVx_faults :
    cycleOf 0xE19E { regs [(1, 0x10)] with key := keys [0] } (fun t =>
      faultIs .keyIndexOutOfRange 0x10 t && t.pc == 0x0200) = true := by decide

theorem test_sknpVx :
    cycleOf 0xE1A1 (regs [(1, 7)]) (·.pc == 0x0204) = true ∧
    cycleOf 0xE1A1 { regs [(1, 7)] with keysIn := [keys [7]] } (·.pc == 0x0202) = true := by decide

theorem test_sknpVx_faults : cycleOf 0xE1A1 (regs [(1, 0xFF)]) (faultIs .keyIndexOutOfRange 0xFF) = true := by decide

theorem test_ldVxK_waits :
    cycleOf 0xF20A { regs [(2, 0xEE)] with dt := 5, st := 1 } (fun t =>
      t.pc == 0x0200 && t.getV 2 == 0xEE && t.dt == 4 && t.st == 0) = true := by decide

theorem test_ldVxK_takes_the_lowest :
    cycleOf 0xF20A { State.reset with keysIn := [keys [3, 9]] } (fun t => t.getV 2 == 3 && t.pc == 0x0202) = true := by
  decide

theorem test_ldVxDt : cycleOf 0xF107 { State.reset with dt := 2 } (fun t => t.getV 1 == 2 && t.dt == 1) = true := by decide

theorem test_ldDtVx : cycleOf 0xF015 (regs [(0, 255)]) (fun t => t.dt == 254 && t.st == 0) = true ∧
    cycleOf 0xF015 { State.reset with dt := 9 } (·.dt == 0) = true := by decide

theorem test_ldStVx : cycleOf 0xF018 (regs [(0, 0x10)]) (fun t => t.st == 15 && t.soundOn) = true ∧
    cycleOf 0xF018 (regs [(0, 1)]) (fun t => t.st == 0 && !t.soundOn) = true := by decide

/-! ## No-op and halt (2.1, 2.9) -/

theorem test_nop :
    cycleOf 0x8008 { regs [(0, 7)] with dt := 5 } (fun t =>
      t.pc == 0x0202 && t.dt == 4 && t.ir == 0x8008 && t.getV 0 == 7) = true ∧
    cycleOf 0xE100 (regs [(1, 0x10)]) (fun t => t.pc == 0x0202 && t.fault == none) = true := by decide

theorem test_halted_core_takes_no_snapshot :
    after (step { State.reset with fault := some ⟨.stackUnderflow, 0⟩, dt := 5, keysIn := [keys [1]] }) (fun t =>
      t.pc == 0x0200 && t.dt == 5 && t.keysIn == [keys [1]] && t.key == keys []) = true := by decide

theorem test_fault_keeps_the_snapshot :
    cycleOf 0x00EE { State.reset with keysIn := [keys [4]] } (fun t => t.key == keys [4] && t.keysIn == []) = true := by
  decide

theorem test_finished :
    (State.reset.withFetchWord 16 0x1200).finished = true ∧ (State.reset.withFetchWord 16 0x1202).finished = false ∧
    ((State.reset.withFetchWord 16 0x1200).faulted .stackUnderflow 0).finished = false ∧
    (State.reset.withFetchWord 16 0xF20A).finished = false := by decide

theorem test_faultOut : (State.reset.faulted .keyIndexOutOfRange 0x10).faultOut = some (6, 0x10) := by decide

/-! ## Witnesses: for every statement with hypotheses, a state and operands that meet them, clause by clause -/

/-- The reset state with a word at `pc`. -/
def at200 (w : Nat) : State := State.reset.withFetchWord 16 w

theorem witness_BootCopiesImageVerbatim :
    (List.replicate 3584 (7 : Byte)).length ≤ 4096 - Config.defaults.loadAddr ∧
    (List.replicate 3584 (7 : Byte))[3583]? = some 7 ∧
    4096 - Config.defaults.loadAddr < (List.replicate 3585 (7 : Byte)).length := by
  refine ⟨?_, ?_, ?_⟩
  · rw [List.length_replicate]; decide
  · rw [List.getElem?_replicate]; rfl
  · rw [List.length_replicate]; decide

theorem witness_legal : Config.defaults.legal ∧ others.legal ∧
    ({ Config.defaults with loadAddr := 80, fontBase := 0 } : Config.Params).legal ∧
    ({ Config.defaults with loadAddr := 4094, fontBase := 4014 } : Config.Params).legal := by decide

theorem witness_ParametersAreFreeAndFixed : ∃ t, step (State.resetWith others) = .next t := ⟨_, rfl⟩

theorem witness_DecodeOfEncodeIsIdentity : (Instr.nopGroupF 0xFFF#12).wellFormed = true := by decide

/-- Every row's fixed bits are those of a word: its pattern. -/
theorem witness_WordsDecodeTo : definedRows.all (fun r => r.hits r.pattern) = true := by decide

theorem witness_StepRunsFetchedInstruction_completes :
    (at200 0x6A2B).Fetches (.ldVxKk 10 0x2B) ∧
    ∃ t, exec (.ldVxKk 10 0x2B) (at200 0x6A2B).entered = .next t ∧ t.fault = none :=
  ⟨by unfold State.Fetches; decide, _, rfl, rfl⟩

theorem witness_StepRunsFetchedInstruction_faults :
    (at200 0x00EE).Fetches .ret ∧
    ∃ t, exec .ret (at200 0x00EE).entered = .next t ∧ t.fault = some ⟨.stackUnderflow, 0⟩ :=
  ⟨by unfold State.Fetches; decide, _, rfl, rfl⟩

theorem witness_StepRunsFetchedInstruction_stops :
    ({ at200 0x00EE with sp := 17 } : State).Fetches .ret ∧
    exec .ret ({ at200 0x00EE with sp := 17 } : State).entered = .fault .stackPointerIllegal :=
  ⟨by unfold State.Fetches; decide, rfl⟩

theorem witness_PlacedWordIsFetched :
    ({ State.reset with pc := 4094 } : State).memWf = true ∧ ({ State.reset with pc := 4094 } : State).params.legal ∧ ({ State.reset with pc := 4094 } : State).pc.toNat ≤ 4094 := by
  decide

theorem witness_FaultingCycleCommitsNothing :
    (at200 0x00EE).fault = none ∧ ∃ t, step (at200 0x00EE) = .next t ∧ t.fault = some ⟨.stackUnderflow, 0⟩ :=
  ⟨rfl, _, rfl, rfl⟩

theorem witness_HaltedCoreStaysAsItIs :
    (State.reset.faulted .fetchOutOfRange 4095).fault = some ⟨.fetchOutOfRange, 4095⟩ := rfl

/-- One cycle of a no-op with both timers running. -/
theorem witness_TimersCountCycles :
    ∃ t, Host.Core.run core 1 { at200 0x8008 with dt := 5, st := 1 } = .next t ∧ t.fault = none ∧
      ∀ k u x, k < 1 → Host.Core.run core k { at200 0x8008 with dt := 5, st := 1 } = .next u →
        ¬ u.Fetches (.ldDtVx x) ∧ ¬ u.Fetches (.ldStVx x) := by
  refine ⟨_, rfl, rfl, fun k u x hk hu => ?_⟩
  obtain rfl : k = 0 := by omega
  injection hu with hu
  subst hu
  have h : ({ at200 0x8008 with dt := 5, st := 1 } : State).Fetches (.nopGroup8 0x008) := by
    unfold State.Fetches; decide
  constructor <;> rintro ⟨_, _, e⟩ <;> exact absurd (h.2.2.symm.trans e) (by simp)

/-- Its last clause: a cycle that faults with both timers running. -/
theorem witness_TimersCountCycles_fault :
    ∃ t, step { at200 0x00EE with dt := 5, st := 1 } = .next t ∧ t.fault ≠ none := ⟨_, rfl, by decide⟩

theorem witness_RetPopsReturnAddress :
    State.reset.sp.toNat = 0 ∧ ({ State.reset with sp := 1 } : State).sp.toNat = (0 : Fin 16).val + 1 ∧
    ({ State.reset with sp := 16 } : State).sp.toNat = (15 : Fin 16).val + 1 := by decide

theorem witness_CallPushesReturnAddress :
    16 ≤ ({ State.reset with sp := 16 } : State).sp.toNat ∧ State.reset.sp.toNat = (0 : Fin 16).val ∧
    ({ State.reset with sp := 15 } : State).sp.toNat = (15 : Fin 16).val := by decide

theorem witness_skips :
    (regs [(1, 255)]).getV 1 = 255 ∧ (regs [(1, 255)]).getV 1 ≠ 254 ∧
    (regs [(1, 255)]).getV 1 ≠ (regs [(1, 255)]).getV 2 ∧ (regs [(1, 255)]).getV 2 = (regs [(1, 255)]).getV 3 := by decide

/-- The callee's `RET` executes in the very state the `CALL` leaves, from the deepest legal call. -/
theorem witness_RetUndoesCall :
    ({ State.reset with sp := 15 } : State).sp.toNat < 16 ∧
    ∃ t, exec (.callNnn 0xABC) { State.reset with sp := 15 } = .next t ∧ t.sp = 16 ∧ t.stack[15] = 0x200 :=
  ⟨by decide, _, rfl, by decide, by decide⟩

theorem witness_AddSetsCarry :
    (0 : RegIdx) ≠ VF ∧ 255 < ((regs [(0, 255), (1, 1)]).getV 0).toNat + ((regs [(0, 255), (1, 1)]).getV 1).toNat ∧
    ((regs [(0, 255), (1, 1)]).getV 0).toNat + ((regs [(0, 255), (1, 1)]).getV 2).toNat ≤ 255 := by decide

theorem witness_SubtractionsSetStrictFlag :
    (0 : RegIdx) ≠ VF ∧ ((regs [(0, 5), (1, 4), (2, 5)]).getV 1).toNat < ((regs [(0, 5), (1, 4), (2, 5)]).getV 0).toNat ∧
    ((regs [(0, 5), (1, 4), (2, 5)]).getV 0).toNat ≤ ((regs [(0, 5), (1, 4), (2, 5)]).getV 2).toNat := by decide

theorem witness_RndMasksSomeByte : (0x0F#8).getLsbD 4 = false := by decide

theorem witness_RandomByteTakesAnyValue :
    (∀ x kk, Instr.cls ≠ .rndVxKk x kk) ∧ ∃ t, exec .cls State.reset = .next t := ⟨fun _ _ => by simp, _, rfl⟩

theorem witness_BcdStoresThreeDigits :
    State.reset.memWf = true ∧ ({ State.reset with index := 4093 } : State).base + 2 ≤ 4095 ∧
    4095 < ({ State.reset with index := 4094 } : State).base + 2 := by decide

theorem witness_StoreRegistersUpToVx :
    State.reset.memWf = true ∧ ({ State.reset with index := 4080 } : State).base + (15 : RegIdx).val ≤ 4095 ∧
    (15 : RegIdx) ≤ 15 ∧ 4095 < ({ State.reset with index := 4081 } : State).base + (15 : RegIdx).val ∧
    4095 < ({ State.reset with index := 4096 } : State).base + (0 : RegIdx).val := by decide

theorem witness_LoadRegistersUpToVx :
    ({ State.reset with index := 4081 } : State).base + (14 : RegIdx).val ≤ 4095 ∧ (14 : RegIdx) < 15 ∧
    4095 < ({ State.reset with index := 4082 } : State).base + (14 : RegIdx).val := by decide

theorem witness_StoredBytesAreFetchedBigEndian :
    State.reset.memWf = true ∧ 1 ≤ (1 : RegIdx).val ∧
    ({ State.reset with index := 4094 } : State).base + (1 : RegIdx).val ≤ 4095 := by decide

theorem witness_DrwTogglesCoveredPixels_ranges :
    (0#4).toNat = 0 ∧ ({ State.reset with index := 4091 } : State).base + (5#4).toNat - 1 ≤ 4095 ∧ (5#4).toNat ≠ 0 ∧
    4095 < ({ State.reset with index := 4092 } : State).base + (5#4).toNat - 1 := by decide

/-- The left column of a sprite covers the pixel at the origin, and no pixel of another row. -/
theorem witness_DrwTogglesCoveredPixels_cover :
    (spriteState 63 31 0x80).Covers .clip 0 1 1 63 31 ∧ (spriteState 62 31 0x03).Covers .wrap 0 1 1 5 31 ∧
    ¬ (spriteState 63 31 0x80).Covers .clip 0 1 1 63 30 := by
  refine ⟨⟨0, 0, by decide, by decide, by decide, by decide, by decide⟩,
    ⟨0, 7, by decide, by decide, by decide, by decide, by decide⟩, ?_⟩
  rintro ⟨r, c, hr, hc, _, h⟩
  obtain rfl : r = 0 := by omega
  exact absurd h.2 (by decide)

/-- Over lit pixels, the coordinates not in VF: the hypotheses of the restoration hold. -/
theorem witness_DrawingTwiceRestoresPixels_lit :
    (spriteState 2 3 0xF0).base + (1#4).toNat - 1 ≤ 4095 ∧
    ∃ t, exec (.drwVxVyN 0 1 1) ((spriteState 2 3 0xF0).setFb (togglePixel clearFb 2 3)) = .next t ∧
      (t.getV 0).toNat % 64 = ((spriteState 2 3 0xF0).getV 0).toNat % 64 ∧
      (t.getV 1).toNat % 32 = ((spriteState 2 3 0xF0).getV 1).toNat % 32 := ⟨by decide, _, rfl, by decide, by decide⟩

/-- Over a framebuffer that is off everywhere the hypothesis of the flag holds too. -/
theorem witness_DrawingTwiceRestoresPixels :
    (spriteState 2 3 0xF0).base + (1#4).toNat - 1 ≤ 4095 ∧
    (∃ t, exec (.drwVxVyN 0 1 1) (spriteState 2 3 0xF0) = .next t ∧
      (t.getV 0).toNat % 64 = ((spriteState 2 3 0xF0).getV 0).toNat % 64 ∧
      (t.getV 1).toNat % 32 = ((spriteState 2 3 0xF0).getV 1).toNat % 32) ∧
    ∀ px py, (spriteState 2 3 0xF0).Covers (spriteState 2 3 0xF0).params.drawEdge 0 1 1 px py →
      pixel (spriteState 2 3 0xF0).fb px py = false :=
  ⟨by decide, ⟨_, rfl, by decide, by decide⟩, fun px py _ => pixel_clearFb px py⟩

theorem witness_KeySkipsTestTheSnapshot :
    ((regs [(1, 15)]).getV 1).toNat = (15 : Fin 16).val ∧ (keys [15])[(15 : Fin 16)] = true ∧
    (keys [15])[(14 : Fin 16)] = false ∧ ((regs [(1, 0)]).getV 1).toNat = (0 : Fin 16).val ∧
    15 < ((regs [(1, 16)]).getV 1).toNat := by decide

theorem witness_TimerMoves : (at200 0xF107).Fetches (.ldVxDt 1) := by unfold State.Fetches; decide

theorem witness_WrittenTimerHoldsOneLess :
    (at200 0xF015).Fetches (.ldDtVx 0) ∧ (at200 0xF018).Fetches (.ldStVx 0) ∧
    ((State.setV (at200 0xF018) 0 1).getV 0).toNat = 1 ∧ (State.setV (at200 0xF018) 0 1).Fetches (.ldStVx 0) := by
  unfold State.Fetches; decide

theorem witness_KeyWaitTakesLeastKey :
    (keys [15])[(15 : Fin 16)] = true ∧ (∀ j : Fin 16, j < 15 → (keys [15])[j] = false) ∧
    (keys [0, 3])[(0 : Fin 16)] = true ∧ (∀ j : Fin 16, j < 0 → (keys [0, 3])[j] = false) ∧
    (at200 0xF20A).Fetches (.ldVxK 2) ∧ (∀ k : Fin 16, (at200 0xF20A).entered.key[k] = false) := by
  unfold State.Fetches; decide

theorem witness_UnmappedWordsDoNothing :
    ((fieldG 0x00E1).toNat = 0x0 ∧ (fieldN 0x00E1).toNat ∉ [0x0, 0xE]) ∧
    ((fieldG 0x8008).toNat = 0x8 ∧ (fieldN 0x8008).toNat ∉ [0x0, 0x1, 0x2, 0x3, 0x4, 0x5, 0x6, 0x7, 0xE]) ∧
    ((fieldG 0xE100).toNat = 0xE ∧ (fieldN 0xE100).toNat ∉ [0xE, 0x1]) ∧
    ((fieldG 0xF1FF).toNat = 0xF ∧
      (fieldKk 0xF1FF).toNat ∉ [0x07, 0x0A, 0x15, 0x18, 0x1E, 0x29, 0x33, 0x55, 0x65]) ∧
    (at200 0x00E1).Fetches (.nopGroup0 0x0E1) ∧ (at200 0x8008).Fetches (.nopGroup8 0x008) ∧
    (at200 0xE100).Fetches (.nopGroupE 0x100) ∧ (at200 0xF1FF).Fetches (.nopGroupF 0x1FF) := by
  unfold State.Fetches; decide

theorem witness_FaultCausesAndTheirRaisers_fetch :
    ({ State.reset with pc := 4095 } : State).fault = none ∧ 4094 < ({ State.reset with pc := 4095 } : State).pc.toNat := by
  decide

/-- Each of the eight raisers raises somewhere. -/
theorem witness_FaultCausesAndTheirRaisers_raise :
    after (exec .ret State.reset) (faultIs .stackUnderflow 0) = true ∧
    after (exec (.callNnn 0) { State.reset with sp := 16 }) (faultIs .stackOverflow 16) = true ∧
    after (exec (.skpVx 1) (regs [(1, 16)])) (faultIs .keyIndexOutOfRange 16) = true ∧
    after (exec (.sknpVx 1) (regs [(1, 16)])) (faultIs .keyIndexOutOfRange 16) = true ∧
    after (exec (.ldBVx 1) { State.reset with index := 4094 }) (faultIs .memWriteOutOfRange 4096) = true ∧
    after (exec (.ldMemVx 1) { State.reset with index := 4095 }) (faultIs .memWriteOutOfRange 4096) = true ∧
    after (exec (.ldVxMem 1) { State.reset with index := 4095 }) (faultIs .memReadOutOfRange 4096) = true ∧
    after (exec (.drwVxVyN 1 1 2) { State.reset with index := 4095 }) (faultIs .memReadOutOfRange 4096) = true := by
  decide

/-- An instruction that is none of the raisers, in a state whose latch is clear. -/
theorem witness_FaultCausesAndTheirRaisers_others :
    State.reset.fault = none ∧ Instr.cls ≠ .ret ∧ (∀ nnn, Instr.cls ≠ .callNnn nnn) ∧
    (∀ x y n, Instr.cls ≠ .drwVxVyN x y n) ∧
    ∀ x, Instr.cls ≠ .ldBVx x ∧ Instr.cls ≠ .ldMemVx x ∧ Instr.cls ≠ .ldVxMem x ∧ Instr.cls ≠ .skpVx x ∧
      Instr.cls ≠ .sknpVx x := by simp [State.reset, State.resetWith]

theorem witness_OnlySixInstructionsDefineTheFlag :
    after (exec (.addVxVy 0 1) (regs [(0, 255), (1, 1)])) (fun t =>
      t.getV VF != (regs [(0, 255), (1, 1)]).getV VF && t.fault == none) = true ∧
    after (exec (.ldVxKk VF 9) State.reset) (fun t => t.getV VF != State.reset.getV VF) = true := by decide

/-- Each kind of state has a writer that changes it. -/
theorem witness_EveryRegisterHasItsOnlyWriters :
    after (exec (.ldINnn 5) State.reset) (fun t => t.index != State.reset.index) = true ∧
    after (exec (.jpNnn 5) State.reset) (fun t => t.pc != State.reset.pc) = true ∧
    after (exec (.callNnn 5) State.reset) (fun t => t.sp != State.reset.sp && t.stack != State.reset.stack) = true ∧
    after (exec (.ldDtVx 1) (regs [(1, 5)])) (fun t => t.dt != (regs [(1, 5)]).dt) = true ∧
    after (exec (.ldStVx 1) (regs [(1, 5)])) (fun t => t.st != (regs [(1, 5)]).st) = true ∧
    after (exec (.drwVxVyN 0 1 1) (spriteState 2 3 0xF0)) (fun t => pixel t.fb 2 3 != pixel (spriteState 2 3 0xF0).fb 2 3) =
      true ∧
    after (exec (.ldMemVx 1) (regs [(1, 5)])) (fun t => t.mem != (regs [(1, 5)]).mem) = true := by decide

theorem witness_ProgramsCannotObserveIrOrSt :
    (∀ x, Instr.cls ≠ .ldStVx x) ∧ ∃ t, exec .cls State.reset = .next t := ⟨fun _ => by simp, _, rfl⟩

theorem witness_OnlyRetStopsAndOnlyOnIllegalSp :
    ({ State.reset with sp := 16 } : State).sp.toNat ≤ 16 ∧ 16 < ({ State.reset with sp := 17 } : State).sp.toNat ∧
    Instr.cls ≠ .ret := by decide

/-- The reset state meets the invariant, and so does one with a fault latched. -/
theorem witness_invariant : StateInv State.reset ∧ StateInv (State.reset.faulted .stackOverflow 16) := by
  constructor
  · exact ⟨by decide, by decide, by decide, by decide, fun f h => (by cases h), by decide⟩
  · exact ⟨by decide, by decide, by decide, by decide, fun f h => (by cases h; rfl), by decide⟩

theorem witness_EveryCycleKeepsInvariant : StateInv State.reset ∧ ∃ t, step State.reset = .next t :=
  ⟨witness_invariant.1, _, rfl⟩

/-- The image of `RET` alone boots, and after one cycle with a key pressed a fault is latched. -/
theorem witness_RunsOfAnyImageGoOn :
    Config.defaults.legal ∧ ∃ s t, boot Config.defaults [0x00, 0xEE] = .next s ∧
      Host.Core.run core 1 { s with keysIn := [keys [4]], randIn := [7], randDraws := 3 } = .next t ∧
      t.fault = some ⟨.stackUnderflow, 0⟩ := ⟨by decide, _, _, rfl, rfl, rfl⟩

theorem witness_FinishedRunsOnlyCountDown :
    (at200 0x1200).finished = true ∧ (State.reset.faulted .stackUnderflow 0).fault = some ⟨.stackUnderflow, 0⟩ := by
  decide

end Sys2Proof.Tests
end

section
/-! SUPPORT. What every instruction and every cycle keeps or does, whatever it is: the parameters, the invariant, and
that it completes; and from these the runs. -/

namespace Sys2Proof.Machine

/-- To show a fact of the state that an outcome `next` names, show it of the state the outcome was built from. -/
theorem of_next {P : State → Prop} {u t : State} (h : (.next u : Result) = .next t) (hu : P u) : P t := by
  injection h with h
  exact h ▸ hu

/-! ## The parameters -/

/-- No instruction changes the machine's parameters. -/
theorem exec_params {i : Instr} {s t : State} (h : exec i s = .next t) : t.params = s.params :=
  exec_next_ind (P := fun t => t.params = s.params) h (fun _ => rfl) (fun _ => rfl) (fun _ _ _ => rfl)
    (fun _ _ => rfl) (fun _ _ _ => rfl) (fun _ _ _ _ => rfl) (fun _ _ => rfl) (fun _ _ _ => rfl) (fun _ _ => rfl)
    (fun _ _ => rfl) (fun _ _ => rfl)

/-- No cycle changes the machine's parameters. -/
theorem step_params {s t : State} (h : step s = .next t) : t.params = s.params := by
  obtain ⟨-, rfl⟩ | ⟨-, -, rfl⟩ | ⟨i, u, -, he, ⟨-, rfl⟩ | ⟨f, -, rfl⟩⟩ := step_cases h
  · rfl
  · rfl
  · exact (exec_params he).trans rfl
  · rfl

/-! ## Completion -/

/-- Every instruction answers a next state, but `RET` with an illegal `sp` (log entry 7). -/
theorem exec_completes {i : Instr} {s : State} (h : i = .ret → s.sp.toNat ≤ 16) : ∃ t, exec i s = .next t := by
  cases i with
  | ret =>
    rcases Nat.eq_zero_or_pos s.sp.toNat with h0 | h0
    · have hsp : s.sp = 0 := BitVec.eq_of_toNat_eq h0
      simp only [exec, execRet, pop_empty hsp]
      exact ⟨_, rfl⟩
    · simp only [exec, execRet, pop_value h0 (h rfl)]
      exact ⟨_, rfl⟩
  | callNnn | skpVx | sknpVx | ldVxK | ldBVx | ldMemVx | ldVxMem | drwVxVyN =>
    simp only [exec, execCallNnn, execSkpVx, execSknpVx, execLdVxK, execLdBVx, execLdMemVx, execLdVxMem,
      execDrwVxVyN, State.drawWith]
    split <;> exact ⟨_, rfl⟩
  | _ => exact ⟨_, rfl⟩

/-- A cycle whose instruction answers a next state ends in a next state: with a tick, or with the fault latched. -/
theorem settle_completes (s u : State) : ∃ t, settle s (.next u) = .next t := by
  simp only [settle]
  split <;> exact ⟨_, rfl⟩

/-- With a legal `sp` a cycle completes. -/
theorem step_completes {s : State} (h : s.sp.toNat ≤ 16) : ∃ t, step s = .next t := by
  rcases hf : s.fault with _ | f
  · rcases Nat.lt_or_ge 4094 s.pc.toNat with hp | hp
    · exact ⟨_, step_fetchFault hf hp⟩
    · obtain ⟨u, hu⟩ := exec_completes (i := decode s.fetchedWord) (s := s.entered) fun _ => h
      rw [step_fetches ⟨hf, hp, rfl⟩, hu]
      exact settle_completes s.snapshot u
  · exact ⟨s, step_halted hf⟩

/-! ## The invariant, by kind of update -/

namespace StateInv

variable {s : State}

theorem setAllV (h : StateInv s) (v : Vector Byte 16) : StateInv (s.setAllV v) := { h with }

theorem setIndex (h : StateInv s) (w : Word) : StateInv (s.setIndex w) := { h with }

theorem setFb (h : StateInv s) (fb : Framebuffer) : StateInv (s.setFb fb) := { h with }

theorem tick (h : StateInv s) : StateInv s.tick := { h with }

theorem setPc (h : StateInv s) {w : Word} (hw : w.toNat ≤ 0x10FE) : StateInv (s.setPc w) :=
  { h with pcBounded := hw }

theorem latch (h : StateInv s) {f : FaultRecord} (hf : f.legal) : StateInv (s.latch f) :=
  { h with faultLegal := by rintro _ ⟨⟩; exact hf }

theorem setBytes (h : StateInv s) {a : Nat} {bytes : List Byte} (ha : a + bytes.length ≤ Config.memSize) :
    StateInv (s.setBytes a bytes) :=
  { h with memCanonical := memWf_setBytes h.memCanonical ha }

/-- A slot pushed onto a stack with room keeps the invariant, when it holds an address that a `CALL` can push. -/
theorem pushed (h : StateInv s) {w : Word} (hw : w.toNat ≤ 4096) (hsp : s.sp.toNat < 16) :
    StateInv { s with stack := s.stack.setIfInBounds s.sp.toNat w, sp := s.sp + 1 } :=
  { h with
    spLegal := show (s.sp + 1).toNat ≤ 16 by bv_omega
    slotsBounded := fun k => by
      simp only [Fin.getElem_fin, Vector.getElem_setIfInBounds]
      split
      · exact hw
      · exact h.slotsBounded k }

/-- A slot popped keeps the invariant. -/
theorem popped (h : StateInv s) (hsp : 0 < s.sp.toNat) : StateInv { s with sp := s.sp - 1 } :=
  { h with
    spLegal := show (s.sp - 1).toNat ≤ 16 by have := h.spLegal; bv_omega }

/-- An instruction that a cycle fetches begins in a state that meets the invariant, `pc` at most one past memory. -/
theorem entered (h : StateInv s) (hp : s.pc.toNat ≤ 4094) :
    StateInv s.entered ∧ 2 ≤ s.entered.pc.toNat ∧ s.entered.pc.toNat ≤ 4096 := by
  have hpc : s.entered.pc.toNat = s.pc.toNat + 2 := show (s.pc + 2).toNat = _ by bv_omega
  exact ⟨{ h with pcBounded := by omega }, by omega, by omega⟩

end StateInv

/-! ## Where the control transfers lead, and what the faults hold -/

theorem toNat_v0Target_le (s : State) (nnn : Addr12) : (s.v0Target nnn).toNat ≤ 0x10FE := by
  have := (s.getV 0).isLt
  have := nnn.isLt
  simp only [State.v0Target, BitVec.toNat_add, toNat_byteWord, toNat_addrWord]
  omega

theorem toNat_skipIf_pc_le {s : State} (h : s.pc.toNat ≤ 4096) (c : Bool) : (s.skipIf c).pc.toNat ≤ 0x10FE := by
  simp only [State.skipIf_pc]
  split
  · simp only [State.skipTarget]; bv_omega
  · omega

/-- The lowest address out of range, as the fault records hold it. -/
theorem le_toNat_outOfRange (s : State) : 4096 ≤ (BitVec.ofNat 16 (max s.base 4096)).toNat := by
  have : s.base < 65536 := s.index.isLt
  simp only [BitVec.toNat_ofNat]
  omega

/-- An instruction keeps the invariant, from any state a cycle can enter it in. -/
theorem exec_keeps_inv {i : Instr} {s t : State} (hs : StateInv s) (hlo : 2 ≤ s.pc.toNat) (hhi : s.pc.toNat ≤ 4096)
    (h : exec i s = .next t) : StateInv t := by
  have hskip (c : Bool) : StateInv (s.skipIf c) := hs.setPc (toNat_skipIf_pc_le hhi c)
  have haddr (nnn : Addr12) : (addrWord nnn).toNat ≤ 0x10FE := by
    have := nnn.isLt
    rw [toNat_addrWord]; omega
  have hkey (x : RegIdx) (hx : 15 < (s.getV x).toNat) :
      StateInv (s.latch ⟨.keyIndexOutOfRange, byteWord (s.getV x)⟩) := by
    have := (s.getV x).isLt
    refine hs.latch ?_
    simp only [FaultRecord.legal, toNat_byteWord]; omega
  cases i with
  | ret =>
    obtain ⟨-, rfl⟩ | ⟨k, hk, rfl⟩ := execRet_cases h
    · exact hs.latch rfl
    · have := hs.slotsBounded k
      exact (hs.popped (by omega)).setPc (by omega)
  | callNnn nnn =>
    obtain ⟨hsp, rfl⟩ | ⟨hsp, rfl⟩ := execCallNnn_cases h
    · have := hs.spLegal
      refine hs.latch ?_
      simp only [FaultRecord.legal, BitVec.toNat_setWidth]; omega
    · exact (hs.pushed hhi hsp).setPc (haddr nnn)
  | skpVx x =>
    obtain ⟨hx, rfl⟩ | ⟨-, b, rfl⟩ := execSkpVx_cases h
    · exact hkey x hx
    · exact hskip b
  | sknpVx x =>
    obtain ⟨hx, rfl⟩ | ⟨-, b, rfl⟩ := execSknpVx_cases h
    · exact hkey x hx
    · exact hskip b
  | ldVxK x =>
    obtain rfl | ⟨k, rfl⟩ := execLdVxK_cases h
    · exact hs.setPc (by bv_omega)
    · exact hs.setAllV _
  | ldBVx x =>
    obtain ⟨-, rfl⟩ | ⟨hb, rfl⟩ := execLdBVx_cases h
    · exact hs.latch (le_toNat_outOfRange s)
    · exact hs.setBytes (by rw [length_decimalDigits]; simp only [Config.memSize]; omega)
  | ldMemVx x =>
    obtain ⟨-, rfl⟩ | ⟨hb, rfl⟩ := execLdMemVx_cases h
    · exact hs.latch (le_toNat_outOfRange s)
    · exact hs.setBytes (by rw [length_regsUpTo]; simp only [Config.memSize]; omega)
  | ldVxMem x =>
    obtain ⟨-, rfl⟩ | ⟨-, rfl⟩ := execLdVxMem_cases h
    · exact hs.latch (le_toNat_outOfRange s)
    · exact hs.setAllV _
  | drwVxVyN x y n =>
    obtain ⟨-, -, rfl⟩ | ⟨-, d, rfl⟩ := drawWith_cases h
    · exact hs.latch (le_toNat_outOfRange s)
    · exact (hs.setFb _).setAllV _
  | jpNnn nnn => exact of_next h (hs.setPc (haddr nnn))
  | jpV0Nnn nnn => exact of_next h (hs.setPc (toNat_v0Target_le s nnn))
  | seVxKk | sneVxKk | seVxVy | sneVxVy => exact of_next h (hskip _)
  | ldINnn | addIVx | ldFVx => exact of_next h (hs.setIndex _)
  | cls => exact of_next h (hs.setFb _)
  | ldDtVx | ldStVx | rndVxKk => exact of_next h { hs with }
  | nopGroup0 | nopGroup8 | nopGroupE | nopGroupF => exact of_next h hs
  | _ => exact of_next h (hs.setAllV _)

/-- A cycle keeps the invariant. -/
theorem step_keeps_inv {s t : State} (hs : StateInv s) (h : step s = .next t) : StateInv t := by
  have hsnap : StateInv s.snapshot := { hs with }
  obtain ⟨-, rfl⟩ | ⟨-, hp, rfl⟩ | ⟨i, u, ⟨-, hp, -⟩, he, hu⟩ := step_cases h
  · exact hs
  · exact hsnap.latch ⟨hp, hs.pcBounded⟩
  · obtain ⟨hent, hlo, hhi⟩ := hs.entered hp
    have hinv : StateInv u := exec_keeps_inv hent hlo hhi he
    obtain ⟨-, rfl⟩ | ⟨f, hf, rfl⟩ := hu
    · exact hinv.tick
    · exact hsnap.latch (hinv.faultLegal f hf)

/-! ## Reset and load -/

theorem stateInv_resetWith {p : Config.Params} (h : p.legal) : StateInv (State.resetWith p) where
  memCanonical := memWf_resetWith p
  spLegal := by simp [State.resetWith]
  pcBounded := by
    have := h.2
    rw [show (State.resetWith p).pc = BitVec.ofNat 16 p.loadAddr from rfl, toNat_loadAddr h]
    omega
  slotsBounded k := by simp [State.resetWith]
  faultLegal := by rintro _ ⟨⟩
  paramsLegal := h

/-- A machine into which an image was loaded meets the invariant. -/
theorem boot_meets_inv {p : Config.Params} {img : List Byte} {s : State} (hp : p.legal) (h : boot p img = .next s) :
    StateInv s := by
  simp only [boot] at h
  split at h
  · next hlen =>
    have hload : p.loadAddr ≤ 4094 := hp.2
    have hfits : p.loadAddr + img.length ≤ Config.memSize := by simp only [Config.memSize] at hlen ⊢; omega
    exact of_next h ((stateInv_resetWith hp).setBytes hfits)
  · cases h

/-! ## Runs -/

/-- A run from a state that meets the invariant goes on in such states. -/
theorem run_keeps_inv {s : State} (hs : StateInv s) (n : Nat) :
    ∃ t, Host.Core.run core n s = .next t ∧ StateInv t := by
  induction n generalizing s with
  | zero => exact ⟨s, run_zero s, hs⟩
  | succ n ih =>
    obtain ⟨u, hu⟩ := step_completes hs.spLegal
    rw [run_succ_next n hu]
    exact ih (step_keeps_inv hs hu)

/-- A halted core stays as it is, for any number of cycles (`60_exceptions.md` R146). -/
theorem run_halted {s : State} {f : FaultRecord} (h : s.fault = some f) (n : Nat) :
    Host.Core.run core n s = .next s := by
  induction n with
  | zero => exact run_zero s
  | succ n ih => rw [run_succ_next n (step_halted h), ih]

/-! ## The statements of the scope -/

/-- Settles O2: the defaults by evaluation, the constancy because no kind of update an instruction makes touches the
parameters. -/
theorem parametersAreFreeAndFixed : Obligations.ParametersAreFreeAndFixed := by
  unfold Obligations.ParametersAreFreeAndFixed
  exact ⟨rfl, rfl, rfl, rfl, by decide, rfl, fun _ => Iff.rfl, fun _ _ => step_params, fun _ => rfl⟩

/-- Settles O48: the one instruction that can stop needs an `sp` above 16, which the invariant rules out. -/
theorem everyCycleCompletes : Obligations.EveryCycleCompletes := fun _ hs => step_completes hs.spLegal

/-- Settles O49: the loaded machine meets the invariant whatever inputs the host queues, every cycle completes and keeps
it, and from a latched fault on nothing changes. -/
theorem runsOfAnyImageGoOn : Obligations.RunsOfAnyImageGoOn := by
  unfold Obligations.RunsOfAnyImageGoOn
  intro p img s ks rs d hp hb n
  have hs : StateInv { s with keysIn := ks, randIn := rs, randDraws := d } := { boot_meets_inv hp hb with }
  obtain ⟨t, ht, hinv⟩ := run_keeps_inv hs n
  refine ⟨t, ht, hinv, fun f hf m u hu => ?_⟩
  rw [run_add m ht, run_halted hf m] at hu
  injection hu with hu
  exact hu.symm

end Sys2Proof.Machine
end

section
/-! SUPPORT. What instructions and cycles do to the state of `10_state.md`: who writes what, what nothing reads, the
flag, the timers, the discard after a fault, and reset. -/

namespace Sys2Proof.Machine

/-- The state that an outcome `next` names is the one it was built from. -/
theorem eq_of_next {u t : State} (h : (.next u : Result) = .next t) : t = u := by
  injection h with h
  exact h.symm

/-! ## The invariant -/

/-- Settles O47: the invariant is kept by every instruction from the state a cycle enters it in, by the tick and by the
latching of a fault. -/
theorem everyCycleKeepsInvariant : Obligations.EveryCycleKeepsInvariant := fun _ _ => step_keeps_inv

/-- Settles O46: the invariant of the reset state and of a booted one, the defaults being legal parameters. -/
theorem resetAndBootMeetInvariant : Obligations.ResetAndBootMeetInvariant :=
  ⟨stateInv_resetWith (by decide), fun _ hp => ⟨stateInv_resetWith hp, fun _ _ => boot_meets_inv hp⟩⟩

/-! ## Reset -/

/-- A byte of the font table, after reset. -/
theorem resetByte_font (p : Config.Params) (k : Fin Config.fontSize) :
    p.resetByte (p.fontBase + k.val) = p.fontData[k] := by
  simp [Config.Params.resetByte]

/-- A byte outside the font table, after reset. -/
theorem resetByte_outside_font {p : Config.Params} {a : Nat} (h : a < p.fontBase ∨ p.fontBase + Config.fontSize ≤ a) :
    p.resetByte a = 0 := by
  simp only [Config.Params.resetByte]
  split
  · rw [Vector.getElem?_eq_none (by omega)]; rfl
  · rfl

/-- Settles O1: memory reads as its reset contents, every other field is the literal of `State.resetWith`. -/
theorem resetStateHoldsStatedValues : Obligations.ResetStateHoldsStatedValues := by
  unfold Obligations.ResetStateHoldsStatedValues
  rintro p _ hp rfl
  exact ⟨fun r => by simp [State.resetWith, State.getV], rfl, toNat_loadAddr hp, rfl,
    fun k => by simp [State.resetWith], rfl, rfl, rfl, pixel_clearFb, resetByte_font p,
    fun _ => resetByte_outside_font, fun k => by simp [State.resetWith], rfl, rfl⟩

/-! ## The cycle -/

/-- A cycle whose instruction completes ends with the tick (`10_state.md` R17, R25). -/
theorem step_of_completed {s t : State} {i : Instr} (h : s.Fetches i) (he : exec i s.entered = .next t)
    (hf : t.fault = none) : step s = .next t.tick := by
  simp only [step_fetches h, he, settle, hf]

/-- A cycle whose instruction raises a fault ends with the discard (`10_state.md` R26). -/
theorem step_of_faulted {s t : State} {i : Instr} {f : FaultRecord} (h : s.Fetches i)
    (he : exec i s.entered = .next t) (hf : t.fault = some f) : step s = .next (s.snapshot.latch f) := by
  simp only [step_fetches h, he, settle, hf]

/-- Settles O8: `settle` after the fetch, by what the instruction answered. -/
theorem stepRunsFetchedInstruction : Obligations.StepRunsFetchedInstruction := by
  unfold Obligations.StepRunsFetchedInstruction
  intro s i h
  exact ⟨fun t he hf => step_of_completed h he hf, fun t f he hf => step_of_faulted h he hf,
    fun e he => by rw [step_fetches h, he]; rfl⟩

/-- A cycle of a core that is not halted, when it ends with a fault latched, has only taken the keys and latched. -/
theorem step_faulting {s t : State} {f : FaultRecord} (hs : s.fault = none) (h : step s = .next t)
    (hf : t.fault = some f) : t = s.snapshot.latch f := by
  obtain ⟨hs', -⟩ | ⟨-, -, rfl⟩ | ⟨i, u, -, -, ⟨hu, rfl⟩ | ⟨g, -, rfl⟩⟩ := step_cases h
  · exact absurd hs hs'
  · injection hf with hf
    rw [hf]
  · rw [State.tick_fault, hu] at hf
    cases hf
  · injection hf with hf
    rw [hf]

/-- Settles O10: of the ways a step can end, the fetch fault and the discard are the ones that latch. -/
theorem faultingCycleCommitsNothing : Obligations.FaultingCycleCommitsNothing :=
  fun _ _ _ => step_faulting

/-! ## Who writes what -/

/-- Nothing but a control transfer, a skip or the wait for a key changes `pc`: every other instruction writes another
field or latches a fault. -/
theorem exec_pc_writers {i : Instr} {s t : State} (h : exec i s = .next t) (hpc : t.pc ≠ s.pc) :
    i = .ret ∨ (∃ nnn, i = .jpNnn nnn ∨ i = .callNnn nnn ∨ i = .jpV0Nnn nnn) ∨
      (∃ x kk, i = .seVxKk x kk ∨ i = .sneVxKk x kk) ∨ (∃ x y, i = .seVxVy x y ∨ i = .sneVxVy x y) ∨
      ∃ x, i = .skpVx x ∨ i = .sknpVx x ∨ i = .ldVxK x := by
  cases i with
  | ret | jpNnn | callNnn | jpV0Nnn | seVxKk | sneVxKk | seVxVy | sneVxVy | skpVx | sknpVx | ldVxK => simp
  | ldBVx x => obtain ⟨-, rfl⟩ | ⟨-, rfl⟩ := execLdBVx_cases h <;> exact absurd rfl hpc
  | ldMemVx x => obtain ⟨-, rfl⟩ | ⟨-, rfl⟩ := execLdMemVx_cases h <;> exact absurd rfl hpc
  | ldVxMem x =>
    obtain ⟨-, rfl⟩ | ⟨-, rfl⟩ := execLdVxMem_cases h
    · exact absurd rfl hpc
    · exact absurd (State.setAllV_pc ..) hpc
  | drwVxVyN x y n => obtain ⟨-, -, rfl⟩ | ⟨-, d, rfl⟩ := drawWith_cases h <;> exact absurd rfl hpc
  | _ => exact absurd (congrArg State.pc (eq_of_next h)) hpc

/-- The fields of the state that differ in `t` have `i` among their writers (`10_state.md` R24, the column "written
by"); `pc` apart, for which see `exec_pc_writers`. -/
structure OnlyWriters (i : Instr) (s t : State) : Prop where
  index : t.index ≠ s.index → (∃ nnn, i = .ldINnn nnn) ∨ ∃ x, i = .addIVx x ∨ i = .ldFVx x
  sp : t.sp ≠ s.sp → i = .ret ∨ ∃ nnn, i = .callNnn nnn
  stack : t.stack ≠ s.stack → ∃ nnn, i = .callNnn nnn
  dt : t.dt ≠ s.dt → ∃ x, i = .ldDtVx x
  st : t.st ≠ s.st → ∃ x, i = .ldStVx x
  fb : t.fb ≠ s.fb → i = .cls ∨ ∃ x y n, i = .drwVxVyN x y n
  mem : t.mem ≠ s.mem → ∃ x, i = .ldBVx x ∨ i = .ldMemVx x
  ir : t.ir = s.ir
  key : t.key = s.key
  keysIn : t.keysIn = s.keysIn

/-- Each kind of update names its writers and leaves the other fields as they were. -/
theorem exec_onlyWriters {i : Instr} {s t : State} (h : exec i s = .next t) : OnlyWriters i s t := by
  refine exec_next_ind h ?latch ?v ?pc ?index ?ret ?call ?mem ?fb ?dt ?st ?rnd
  case latch => intro f; constructor <;> simp
  case v => intro v; constructor <;> simp
  case pc => intro w _ _; constructor <;> simp
  case index => intro w hi; constructor <;> simp [hi]
  case ret => intro b w hi; constructor <;> simp [hi]
  case call => intro b st w hi; constructor <;> simp [hi]
  case mem => intro m hi; constructor <;> simp [hi]
  case fb => intro fb v hi; constructor <;> simp [hi]
  case dt => intro b hi; constructor <;> simp [hi]
  case st => intro b hi; constructor <;> simp [hi]
  case rnd => intro v _; constructor <;> simp

/-- Settles O43: by kind of update, each of which has its writers; `pc` by instruction. -/
theorem everyRegisterHasItsOnlyWriters : Obligations.EveryRegisterHasItsOnlyWriters := by
  unfold Obligations.EveryRegisterHasItsOnlyWriters
  intro i s t h
  have hw := exec_onlyWriters h
  exact ⟨hw.index, exec_pc_writers h, hw.sp, hw.stack, hw.dt, hw.st, hw.fb, hw.mem, hw.ir, hw.key, hw.keysIn,
    exec_params h⟩

/-! ## The flag -/

theorem flagByte_eq_zero_or_one (c : Bool) : flagByte c = 0 ∨ flagByte c = 1 := by
  cases c
  · exact .inl rfl
  · exact .inr rfl

/-- An instruction that writes one register and changes VF has VF as its destination. -/
theorem dest_eq_flag {s u t : State} {x : RegIdx} {b : Byte} (h : (.next (u.setV x b) : Result) = .next t)
    (hu : u.v = s.v) (hne : t.getV VF ≠ s.getV VF) : x = VF := by
  by_contra hx
  apply hne
  rw [eq_of_next h, State.getV_setV_of_ne u b (Ne.symm hx), State.getV, State.getV, hu]

/-- `LD Vx,[I]` changes VF only when it loads all 16 registers. -/
theorem withRegs_flag {s : State} {x : RegIdx} {bytes : List Byte} (hl : bytes.length = x.val + 1)
    (hx : x ≠ VF) : (s.setAllV (s.withRegs bytes)).getV VF = s.getV VF := by
  have hlt : x.val < 15 := by have : x.val ≠ 15 := fun e => hx (Fin.ext e); omega
  have hnone : bytes[VF.val]? = none := List.getElem?_eq_none (by simp only [hl, VF]; simp; omega)
  have := getElem_withRegs s bytes VF
  rw [hnone] at this
  exact this

/-- Which instructions can change VF. -/
theorem exec_flag_writers {i : Instr} {s t : State} (h : exec i s = .next t) (hne : t.getV VF ≠ s.getV VF) :
    (∃ x y, i = .addVxVy x y ∨ i = .subVxVy x y ∨ i = .subnVxVy x y) ∨ (∃ x, i = .shrVx x ∨ i = .shlVx x) ∨
    (∃ x y n, i = .drwVxVyN x y n) ∨
    (∃ kk, i = .ldVxKk VF kk ∨ i = .addVxKk VF kk ∨ i = .rndVxKk VF kk) ∨
    (∃ y, i = .ldVxVy VF y ∨ i = .orVxVy VF y ∨ i = .andVxVy VF y ∨ i = .xorVxVy VF y) ∨
    i = .ldVxDt VF ∨ i = .ldVxK VF ∨ i = .ldVxMem VF := by
  cases i with
  | addVxVy | subVxVy | subnVxVy | shrVx | shlVx | drwVxVyN => simp
  | ldVxKk x | addVxKk x | rndVxKk x | ldVxVy x | orVxVy x | andVxVy x | xorVxVy x | ldVxDt x =>
    obtain rfl : x = VF := dest_eq_flag h rfl hne
    simp
  | ldVxK x =>
    obtain rfl | ⟨k, rfl⟩ := execLdVxK_cases h
    · exact absurd rfl hne
    · obtain rfl : x = VF := dest_eq_flag rfl rfl hne
      simp
  | ldVxMem x =>
    obtain ⟨-, rfl⟩ | ⟨-, rfl⟩ := execLdVxMem_cases h
    · exact absurd rfl hne
    · obtain rfl : x = VF := not_not.mp fun hx => hne (withRegs_flag (length_bytesAt ..) hx)
      simp
  | ret => obtain ⟨-, rfl⟩ | ⟨k, -, rfl⟩ := execRet_cases h <;> exact absurd rfl hne
  | callNnn nnn => obtain ⟨-, rfl⟩ | ⟨-, rfl⟩ := execCallNnn_cases h <;> exact absurd rfl hne
  | skpVx x => obtain ⟨-, rfl⟩ | ⟨-, b, rfl⟩ := execSkpVx_cases h <;> exact absurd rfl hne
  | sknpVx x => obtain ⟨-, rfl⟩ | ⟨-, b, rfl⟩ := execSknpVx_cases h <;> exact absurd rfl hne
  | ldBVx x => obtain ⟨-, rfl⟩ | ⟨-, rfl⟩ := execLdBVx_cases h <;> exact absurd rfl hne
  | ldMemVx x => obtain ⟨-, rfl⟩ | ⟨-, rfl⟩ := execLdMemVx_cases h <;> exact absurd rfl hne
  | _ => exact absurd (congrArg (State.getV · VF) (eq_of_next h)) hne

/-- An instruction that writes its flag last leaves 0 or 1 in VF. -/
theorem flag_of_next {u t : State} {c : Bool} (h : (.next (u.setV VF (flagByte c)) : Result) = .next t) :
    t.getV VF = 0 ∨ t.getV VF = 1 := by
  rw [eq_of_next h, State.getV_setV_same]
  exact flagByte_eq_zero_or_one c

/-- Settles O42: the writers of VF by instruction; the flag is the byte of a Boolean, and written last. -/
theorem onlySixInstructionsDefineTheFlag : Obligations.OnlySixInstructionsDefineTheFlag := by
  unfold Obligations.OnlySixInstructionsDefineTheFlag
  refine ⟨fun i s t => exec_flag_writers, fun i s t _ h hf => ?_⟩
  rintro (⟨x, y, rfl | rfl | rfl⟩ | ⟨x, rfl | rfl⟩ | ⟨x, y, n, rfl⟩)
  case inr.inr =>
    obtain ⟨-, -, rfl⟩ | ⟨-, d, rfl⟩ := drawWith_cases h
    · cases hf
    · exact flag_of_next rfl
  all_goals exact flag_of_next h

/-! ## What no instruction reads -/

/-- A change of the fields that no instruction reads but `RND` (the random source), nor writes but `RND` and `LD ST,Vx`
(`10_state.md` R16, R18, R21). -/
structure UnreadChange where
  ir : Word → Word := id
  st : Byte → Byte := id
  randIn : List Byte → List Byte := id
  randDraws : Nat → Nat := id

/-- The state after such a change. -/
def State.changed (s : State) (c : UnreadChange) : State :=
  { s with ir := c.ir s.ir, st := c.st s.st, randIn := c.randIn s.randIn, randDraws := c.randDraws s.randDraws }

/-- What a pop finds, its state changed. -/
def Popped.changed (c : UnreadChange) : Popped → Popped
  | .empty f => .empty f
  | .value w s => .value w (s.changed c)
  | .noSlot => .noSlot

/-- An answer, its state changed. -/
def changedResult (c : UnreadChange) : Result → Result
  | .next s => .next (s.changed c)
  | .fault e => .fault e
  | .refused r => .refused r

section

variable (c : UnreadChange) (s : State)

@[simp] theorem changed_pc : (s.changed c).pc = s.pc := rfl
@[simp] theorem changed_params : (s.changed c).params = s.params := rfl
@[simp] theorem getV_changed (r : RegIdx) : (s.changed c).getV r = s.getV r := rfl
@[simp] theorem base_changed : (s.changed c).base = s.base := rfl
@[simp] theorem regsUpTo_changed (x : RegIdx) : (s.changed c).regsUpTo x = s.regsUpTo x := rfl
@[simp] theorem keyAt_changed (b : Byte) : (s.changed c).keyAt b = s.keyAt b := rfl
@[simp] theorem firstPressed_changed : (s.changed c).firstPressed = s.firstPressed := rfl
@[simp] theorem withRegs_changed (bytes : List Byte) : (s.changed c).withRegs bytes = s.withRegs bytes := rfl
@[simp] theorem setAllV_changed (v : Vector Byte 16) : (s.changed c).setAllV v = (s.setAllV v).changed c := rfl
@[simp] theorem readRange_changed (a n : Nat) : (s.changed c).readRange a n = s.readRange a n := rfl

theorem writeRange_changed (a : Nat) (bytes : List Byte) :
    (s.changed c).writeRange a bytes = (s.writeRange a bytes).map (·.changed c) := by
  by_cases h : bytes.length = 0 ∨ a + bytes.length ≤ 4096
  · rw [writeRange_ok h, writeRange_ok h]; rfl
  · rw [writeRange_error h, writeRange_error h]; rfl

theorem push_changed (w : Word) : (s.changed c).push w = (s.push w).map (·.changed c) := by
  rcases Nat.lt_or_ge s.sp.toNat 16 with h | h
  · rw [push_ok w h, push_ok (s := s.changed c) w h]; rfl
  · rw [push_full w h, push_full (s := s.changed c) w h]; rfl

theorem pop_changed : (s.changed c).pop = s.pop.changed c := by
  rcases Nat.eq_zero_or_pos s.sp.toNat with h0 | h0
  · have hsp : s.sp = 0 := BitVec.eq_of_toNat_eq h0
    rw [pop_empty hsp, pop_empty (s := s.changed c) hsp]; rfl
  · rcases Nat.lt_or_ge 16 s.sp.toNat with h | h
    · rw [pop_noSlot h, pop_noSlot (s := s.changed c) h]; rfl
    · rw [pop_value h0 h, pop_value (s := s.changed c) h0 h]; rfl

end

/-- An instruction that is neither `RND` nor `LD ST,Vx` commutes with the change: it does the same whatever these
fields hold, and leaves them. -/
theorem exec_changed (c : UnreadChange) {i : Instr} (s : State) (hr : ∀ x kk, i ≠ .rndVxKk x kk)
    (hst : ∀ x, i ≠ .ldStVx x) : exec i (s.changed c) = changedResult c (exec i s) := by
  cases i with
  | rndVxKk x kk => exact absurd rfl (hr x kk)
  | ldStVx x => exact absurd rfl (hst x)
  | ret =>
    simp only [exec, execRet, pop_changed]
    cases s.pop <;> rfl
  | callNnn nnn =>
    simp only [exec, execCallNnn, push_changed, changed_pc]
    cases s.push s.pc <;> rfl
  | skpVx x =>
    simp only [exec, execSkpVx, keyAt_changed, getV_changed]
    cases s.keyAt (s.getV x) <;> rfl
  | sknpVx x =>
    simp only [exec, execSknpVx, keyAt_changed, getV_changed]
    cases s.keyAt (s.getV x) <;> rfl
  | ldVxK x =>
    simp only [exec, execLdVxK, firstPressed_changed]
    cases s.firstPressed <;> rfl
  | ldBVx x =>
    simp only [exec, execLdBVx, writeRange_changed, base_changed, getV_changed]
    cases s.writeRange s.base (decimalDigits (s.getV x)) <;> rfl
  | ldMemVx x =>
    simp only [exec, execLdMemVx, writeRange_changed, base_changed, regsUpTo_changed]
    cases s.writeRange s.base (s.regsUpTo x) <;> rfl
  | ldVxMem x =>
    simp only [exec, execLdVxMem, readRange_changed, base_changed, withRegs_changed, setAllV_changed]
    cases s.readRange s.base (x.val + 1) <;> rfl
  | drwVxVyN x y n =>
    simp only [exec, execDrwVxVyN, State.drawWith, readRange_changed, base_changed, changed_params]
    cases s.readRange s.base n.toNat <;> rfl
  | _ => rfl

/-- Such an instruction, where it answers next. -/
theorem exec_changed_next (c : UnreadChange) {i : Instr} {s t : State} (hr : ∀ x kk, i ≠ .rndVxKk x kk)
    (hst : ∀ x, i ≠ .ldStVx x) (h : exec i s = .next t) : exec i (s.changed c) = .next (t.changed c) := by
  rw [exec_changed c s hr hst, h]; rfl

/-- Settles O26: the byte drawn is the first one the host presents; all other instructions leave the source alone. -/
theorem randomByteTakesAnyValue : Obligations.RandomByteTakesAnyValue := by
  unfold Obligations.RandomByteTakesAnyValue
  refine ⟨fun x kk s r rest => ⟨_, rfl, State.getV_setV_same .., rfl⟩, fun i s l d t hr h => ?_⟩
  by_cases hst : ∃ x, i = .ldStVx x
  · obtain ⟨x, rfl⟩ := hst
    rw [eq_of_next h]; rfl
  · exact exec_changed_next { randIn := fun _ => l, randDraws := fun _ => d } hr (fun x e => hst ⟨x, e⟩) h

/-- Settles O44: `exec_changed` with one field changed; `RND` and `LD ST,Vx`, which it leaves out, read neither. -/
theorem programsCannotObserveIrOrSt : Obligations.ProgramsCannotObserveIrOrSt := by
  unfold Obligations.ProgramsCannotObserveIrOrSt
  constructor
  · intro i s t w h
    cases i with
    | rndVxKk | ldStVx => rw [eq_of_next h]; rfl
    | _ => exact exec_changed_next { ir := fun _ => w } (by simp) (by simp) h
  · intro i s t b hst h
    cases i with
    | rndVxKk => rw [eq_of_next h]; rfl
    | _ => exact exec_changed_next { st := fun _ => b } (by simp) hst h

/-! ## The timers -/

/-- A cycle that ends with no fault latched has run an instruction to completion, and then ticked. -/
theorem step_completed {s t : State} (h : step s = .next t) (hf : t.fault = none) :
    ∃ i u, s.Fetches i ∧ exec i s.entered = .next u ∧ t = u.tick := by
  obtain ⟨hs, rfl⟩ | ⟨-, -, rfl⟩ | ⟨i, u, hi, he, ⟨-, rfl⟩ | ⟨f, -, rfl⟩⟩ := step_cases h
  · exact absurd hf hs
  · cases hf
  · exact ⟨i, u, hi, he, rfl⟩
  · cases hf

/-- A cycle that does not write `dt` counts it down. -/
theorem step_dt {s t : State} (h : step s = .next t) (hf : t.fault = none) (hw : ¬ ∃ x, s.Fetches (.ldDtVx x)) :
    t.dt.toNat = s.dt.toNat - 1 := by
  obtain ⟨i, u, hi, he, rfl⟩ := step_completed h hf
  have hu : u.dt = s.dt := not_not.mp fun hne => by
    obtain ⟨x, rfl⟩ := (exec_onlyWriters he).dt hne
    exact hw ⟨x, hi⟩
  rw [State.tick_dt, toNat_countDown, hu]

/-- A cycle that does not write `st` counts it down. -/
theorem step_st {s t : State} (h : step s = .next t) (hf : t.fault = none) (hw : ¬ ∃ x, s.Fetches (.ldStVx x)) :
    t.st.toNat = s.st.toNat - 1 := by
  obtain ⟨i, u, hi, he, rfl⟩ := step_completed h hf
  have hu : u.st = s.st := not_not.mp fun hne => by
    obtain ⟨x, rfl⟩ := (exec_onlyWriters he).st hne
    exact hw ⟨x, hi⟩
  rw [State.tick_st, toNat_countDown, hu]

/-- A run that ends with no fault latched has latched none after its first cycle. -/
theorem fault_none_of_run {s t : State} {n : Nat} (h : Host.Core.run core n s = .next t) (hf : t.fault = none) :
    s.fault = none := by
  rcases hs : s.fault with _ | f
  · rfl
  · rw [run_halted hs n] at h
    injection h with h
    rw [← h, hs] at hf
    cases hf

/-- A timer that every cycle counts down, where the cycle does not write it, is max(0, T - N) after N such cycles. -/
theorem run_counts_down {timer : State → Byte} {writes : State → Prop}
    (hstep : ∀ {s t : State}, step s = .next t → t.fault = none → ¬ writes s →
      (timer t).toNat = (timer s).toNat - 1)
    {n : Nat} {s t : State} (h : Host.Core.run core n s = .next t) (hf : t.fault = none)
    (hw : ∀ k u, k < n → Host.Core.run core k s = .next u → ¬ writes u) :
    (timer t).toNat = (timer s).toNat - n := by
  induction n generalizing s with
  | zero =>
    injection h with h
    rw [h, Nat.sub_zero]
  | succ n ih =>
    obtain ⟨u, hu, hr⟩ := run_succ_cases h
    have hfirst : (timer u).toNat = (timer s).toNat - 1 :=
      hstep hu (fault_none_of_run hr hf) (hw 0 s (Nat.zero_lt_succ n) (run_zero s))
    have hrest : (timer t).toNat = (timer u).toNat - n :=
      ih hr fun k v hk hv => hw (k + 1) v (by omega) (by rw [run_succ_next k hu, hv])
    omega

/-- A cycle that ends with a fault latched leaves both timers as they were. -/
theorem step_faulting_timers {s t : State} (h : step s = .next t) (hf : t.fault ≠ none) :
    t.dt = s.dt ∧ t.st = s.st := by
  obtain ⟨-, rfl⟩ | ⟨-, -, rfl⟩ | ⟨i, u, -, -, ⟨hu, rfl⟩ | ⟨f, -, rfl⟩⟩ := step_cases h
  · exact ⟨rfl, rfl⟩
  · exact ⟨rfl, rfl⟩
  · exact absurd hu hf
  · exact ⟨rfl, rfl⟩

/-- Settles O12: each cycle of the run ticks after an instruction that leaves the timer alone. -/
theorem timersCountCycles : Obligations.TimersCountCycles := by
  unfold Obligations.TimersCountCycles
  refine ⟨fun n s t h hf hw => ?_, fun n s t h hf hw => ?_, fun s t => step_faulting_timers⟩
  · exact run_counts_down step_dt h hf fun k u hk hu ⟨x, hx⟩ => hw k u x hk hu hx
  · exact run_counts_down step_st h hf fun k u hk hu ⟨x, hx⟩ => hw k u x hk hu hx

/-- Settles O38: the tick of the cycle that writes a timer follows the write. -/
theorem writtenTimerHoldsOneLess : Obligations.WrittenTimerHoldsOneLess := by
  unfold Obligations.WrittenTimerHoldsOneLess
  refine ⟨fun x s h => ⟨_, step_of_completed h rfl h.1, toNat_countDown _⟩,
    fun x s h => ⟨_, step_of_completed h rfl h.1, toNat_countDown _, fun h1 => ?_⟩⟩
  have hx : s.getV x = 1 := BitVec.eq_of_toNat_eq h1
  have : s.entered.getV x = 1 := hx
  simp only [State.soundOn, State.tick_st, State.setSt_st, this]
  rfl

end Sys2Proof.Machine
end

section
/-! SUPPORT. Code and data are one space (`20_memory.md` R42): a fetch reads the bytes stored where it reads, whether
the load or `LD [I],Vx` stored them, the one at the lower address as the high byte (R33). -/

namespace Sys2Proof.Machine

/-! ## Reading back what was stored -/

/-- A stored byte is read at its own address. -/
theorem byteAt_setBytes_of_getElem? {s : State} {a k : Nat} {b : Byte} {bytes : List Byte} (hm : s.memWf = true)
    (ha : a + bytes.length ≤ Config.memSize) (hk : bytes[k]? = some b) : (s.setBytes a bytes).byteAt (a + k) = b := by
  rw [byteAt_setBytes hm ha, if_pos (Nat.le_add_right a k), Nat.add_sub_cancel_left, hk, Option.getD_some]

/-- The first two bytes of a store are the word that a fetch from there reads. -/
theorem fetchedWord_setBytes {s : State} {w : Word} {b c : Byte} {bytes : List Byte} (hm : s.memWf = true)
    (ha : w.toNat + bytes.length ≤ Config.memSize) (hb : bytes[0]? = some b) (hc : bytes[1]? = some c) :
    ((s.setBytes w.toNat bytes).setPc w).fetchedWord = b ++ c := by
  have hfirst : (s.setBytes w.toNat bytes).byteAt w.toNat = b := byteAt_setBytes_of_getElem? (k := 0) hm ha hb
  have hsecond : (s.setBytes w.toNat bytes).byteAt (w.toNat + 1) = c := byteAt_setBytes_of_getElem? hm ha hc
  simp only [State.fetchedWord, State.setPc_pc, State.byteAt_setPc, hfirst, hsecond]

/-- `LD [I],Vx` in range stores V0 to Vx from `I` up. -/
theorem execLdMemVx_ok {x : RegIdx} {s : State} (h : s.base + x.val ≤ 4095) :
    execLdMemVx x s = .next (s.setBytes s.base (s.regsUpTo x)) := by
  have hrange : s.base + (s.regsUpTo x).length ≤ 4096 := by rw [length_regsUpTo]; omega
  simp only [execLdMemVx, writeRange_ok (.inr hrange)]

/-- Settles O32: the first two of the stored registers are V0 and V1, and the fetch reads them back. -/
theorem storedBytesAreFetchedBigEndian : Obligations.StoredBytesAreFetchedBigEndian := by
  unfold Obligations.StoredBytesAreFetchedBigEndian
  intro x s hm hx hb
  have hfits : s.base + (s.regsUpTo x).length ≤ Config.memSize := by
    rw [length_regsUpTo]; simp only [Config.memSize]; omega
  have hV0 : (s.regsUpTo x)[0]? = some (s.getV 0) := getElem?_regsUpTo s x 0 (Fin.zero_le x)
  have hV1 : (s.regsUpTo x)[1]? = some (s.getV 1) := getElem?_regsUpTo s x 1 hx
  exact ⟨_, execLdMemVx_ok hb, fetchedWord_setBytes hm hfits hV0 hV1⟩

/-! ## The word that stands for the program load (log entry 8) -/

theorem highByte_append_lowByte (w : Word) : highByte w ++ lowByte w = w := by
  rw [highByte, lowByte, BitVec.extractLsb'_append_extractLsb'_eq_extractLsb' (Nat.zero_add 8).symm,
    BitVec.extractLsb'_eq_self]

theorem fetchPlace_of_le {s : State} (h : s.pc.toNat ≤ 4094) : s.fetchPlace = s.pc := by
  have : s.pc.toNat + 2 ≤ Config.memSize := by simp only [Config.memSize]; omega
  rw [State.fetchPlace, if_pos this]

theorem fetchPlace_of_lt {s : State} (h : 4094 < s.pc.toNat) : s.fetchPlace = BitVec.ofNat 16 s.params.loadAddr := by
  have : ¬ s.pc.toNat + 2 ≤ Config.memSize := by simp only [Config.memSize]; omega
  rw [State.fetchPlace, if_neg this]

/-- Both bytes at the fetch place are in memory. -/
theorem toNat_fetchPlace_le {s : State} (h : s.params.legal) : s.fetchPlace.toNat ≤ 4094 := by
  rcases Nat.lt_or_ge 4094 s.pc.toNat with hp | hp
  · rw [fetchPlace_of_lt hp, toNat_loadAddr h]
    exact h.2
  · rw [fetchPlace_of_le hp]
    exact hp

theorem withFetchWord_toNat (s : State) (w : Word) : s.withFetchWord 16 w.toNat = s.placeWord w := by
  rw [State.withFetchWord, Nat.mod_eq_of_lt w.isLt, BitVec.ofNat_toNat, BitVec.setWidth_eq]

/-- The word is stored, and then `pc` and the latch are written. -/
theorem placeWord_eq (s : State) (w : Word) :
    s.placeWord w = (({ s with fault := none } : State).setBytes s.fetchPlace.toNat [highByte w, lowByte w]).setPc
      s.fetchPlace := rfl

theorem fetchedWord_placeWord {s : State} (hm : s.memWf = true) (hp : s.params.legal) (w : Word) :
    (s.placeWord w).fetchedWord = w := by
  have hfits : s.fetchPlace.toNat + [highByte w, lowByte w].length ≤ Config.memSize :=
    Nat.add_le_add_right (toNat_fetchPlace_le hp) 2
  rw [placeWord_eq, fetchedWord_setBytes (s := { s with fault := none }) hm hfits rfl rfl, highByte_append_lowByte]

/-- Where the core could fetch already, `pc` stays and the store alone changes memory. -/
theorem onlyMem_placeWord {s : State} (hm : s.memWf = true) (h : s.pc.toNat ≤ 4094) (w : Word) :
    OnlyMem s.pc.toNat 2 { s with fault := none } (s.placeWord w) := by
  rw [placeWord_eq, fetchPlace_of_le h]
  exact onlyMem_setBytes (s := { s with fault := none }) (bytes := [highByte w, lowByte w]) hm
    (Nat.add_le_add_right h 2)

/-- Settles O9: the fetch place is inside memory and holds the two bytes of the word; where the core could fetch
already it is `pc`. -/
theorem placedWordIsFetched : Obligations.PlacedWordIsFetched := by
  unfold Obligations.PlacedWordIsFetched
  intro s w hm hp
  rw [withFetchWord_toNat]
  have hw : (s.placeWord w).fetchedWord = w := fetchedWord_placeWord hm hp w
  exact ⟨⟨rfl, toNat_fetchPlace_le hp, congrArg decode hw⟩, hw, fun h => onlyMem_placeWord hm h w⟩

end Sys2Proof.Machine
end

section
/-! SUPPORT. The encoding (`30_encoding.md`): a word is its fields put together again, and a mask of whole fields keeps
those fields and clears the others. From these, what encoding after decoding keeps of a word (R56, R57), and that the
two-level decoder reads the opcode map row by row (R59, R64). -/

namespace Sys2Proof

/-! ## The round trip of instructions -/

/-- Settles O4: each constructor's word has the fields it was made of, which select it again. -/
theorem decodeOfEncodeIsIdentity : Obligations.DecodeOfEncodeIsIdentity
  | .cls => Laws.RoundTrip.cls
  | .ret => Laws.RoundTrip.ret
  | .jpNnn nnn => Laws.RoundTrip.jpNnn nnn
  | .callNnn nnn => Laws.RoundTrip.callNnn nnn
  | .seVxKk x kk => Laws.RoundTrip.seVxKk x kk
  | .sneVxKk x kk => Laws.RoundTrip.sneVxKk x kk
  | .seVxVy x y => Laws.RoundTrip.seVxVy x y
  | .ldVxKk x kk => Laws.RoundTrip.ldVxKk x kk
  | .addVxKk x kk => Laws.RoundTrip.addVxKk x kk
  | .ldVxVy x y => Laws.RoundTrip.ldVxVy x y
  | .orVxVy x y => Laws.RoundTrip.orVxVy x y
  | .andVxVy x y => Laws.RoundTrip.andVxVy x y
  | .xorVxVy x y => Laws.RoundTrip.xorVxVy x y
  | .addVxVy x y => Laws.RoundTrip.addVxVy x y
  | .subVxVy x y => Laws.RoundTrip.subVxVy x y
  | .shrVx x => Laws.RoundTrip.shrVx x
  | .subnVxVy x y => Laws.RoundTrip.subnVxVy x y
  | .shlVx x => Laws.RoundTrip.shlVx x
  | .sneVxVy x y => Laws.RoundTrip.sneVxVy x y
  | .ldINnn nnn => Laws.RoundTrip.ldINnn nnn
  | .jpV0Nnn nnn => Laws.RoundTrip.jpV0Nnn nnn
  | .rndVxKk x kk => Laws.RoundTrip.rndVxKk x kk
  | .drwVxVyN x y n => Laws.RoundTrip.drwVxVyN x y n
  | .skpVx x => Laws.RoundTrip.skpVx x
  | .sknpVx x => Laws.RoundTrip.sknpVx x
  | .ldVxDt x => Laws.RoundTrip.ldVxDt x
  | .ldVxK x => Laws.RoundTrip.ldVxK x
  | .ldDtVx x => Laws.RoundTrip.ldDtVx x
  | .ldStVx x => Laws.RoundTrip.ldStVx x
  | .addIVx x => Laws.RoundTrip.addIVx x
  | .ldFVx x => Laws.RoundTrip.ldFVx x
  | .ldBVx x => Laws.RoundTrip.ldBVx x
  | .ldMemVx x => Laws.RoundTrip.ldMemVx x
  | .ldVxMem x => Laws.RoundTrip.ldVxMem x
  | .nopGroup0 low => Laws.RoundTrip.nopGroup0 low
  | .nopGroup8 low => Laws.RoundTrip.nopGroup8 low
  | .nopGroupE low => Laws.RoundTrip.nopGroupE low
  | .nopGroupF low => Laws.RoundTrip.nopGroupF low

/-- Settles O7, by running the decoder on the sixteen words. -/
theorem writtenOutWordsDecode : Obligations.WrittenOutWordsDecode := by
  unfold Obligations.WrittenOutWordsDecode
  decide

/-! ## A word is its fields (R51) -/

theorem formatNnn_fields (w : Word) : formatNnn (fieldG w) (fieldNnn w) = w :=
  (BitVec.extractLsb'_append_extractLsb'_eq_extractLsb' rfl).trans BitVec.extractLsb'_eq_self

theorem highByte_of_fields (w : Word) : fieldG w ++ regBits (fieldX w) = highByte w :=
  BitVec.extractLsb'_append_extractLsb'_eq_extractLsb' rfl

theorem fieldKk_of_fields (w : Word) : regBits (fieldY w) ++ fieldN w = fieldKk w :=
  BitVec.extractLsb'_append_extractLsb'_eq_extractLsb' rfl

theorem formatXkk_fields (w : Word) : formatXkk (fieldG w) (fieldX w) (fieldKk w) = w := by
  rw [formatXkk, highByte_of_fields]
  exact (BitVec.extractLsb'_append_extractLsb'_eq_extractLsb' rfl).trans BitVec.extractLsb'_eq_self

theorem formatXyn_eq_formatXkk (g : Nibble) (x y : RegIdx) (n : Nibble) :
    formatXyn g x y n = formatXkk g x (regBits y ++ n) := BitVec.append_assoc ..

theorem formatXyn_fields (w : Word) : formatXyn (fieldG w) (fieldX w) (fieldY w) (fieldN w) = w := by
  rw [formatXyn_eq_formatXkk, fieldKk_of_fields, formatXkk_fields]

theorem toNat_fieldN (w : Word) : (fieldN w).toNat = (fieldNnn w).toNat % 16 := by
  rw [← toNat_lowNibble, ← fieldN_formatNnn (fieldG w), formatNnn_fields]

theorem toNat_fieldKk (w : Word) : (fieldKk w).toNat = (fieldNnn w).toNat % 256 := by
  rw [← toNat_lowByte, ← fieldKk_formatNnn (fieldG w), formatNnn_fields]

/-! ## What the masks of the opcode map keep of a word -/

theorem fieldG_and (w m : Word) : fieldG (w &&& m) = fieldG w &&& fieldG m := BitVec.extractLsb'_and

theorem regBits_fieldX_and (w m : Word) :
    regBits (fieldX (w &&& m)) = regBits (fieldX w) &&& regBits (fieldX m) := BitVec.extractLsb'_and

theorem regBits_fieldY_and (w m : Word) :
    regBits (fieldY (w &&& m)) = regBits (fieldY w) &&& regBits (fieldY m) := BitVec.extractLsb'_and

theorem fieldN_and (w m : Word) : fieldN (w &&& m) = fieldN w &&& fieldN m := BitVec.extractLsb'_and

theorem fieldKk_and (w m : Word) : fieldKk (w &&& m) = fieldKk w &&& fieldKk m := BitVec.extractLsb'_and

theorem and_eq_formatXyn {w m : Word} {g n : Nibble} {x y : RegIdx} (hg : fieldG w &&& fieldG m = g)
    (hx : regBits (fieldX w) &&& regBits (fieldX m) = regBits x)
    (hy : regBits (fieldY w) &&& regBits (fieldY m) = regBits y) (hn : fieldN w &&& fieldN m = n) :
    w &&& m = formatXyn g x y n := by
  rw [← formatXyn_fields (w &&& m)]
  simp only [formatXyn, fieldG_and, regBits_fieldX_and, regBits_fieldY_and, fieldN_and, hg, hx, hy, hn]

theorem and_eq_formatXkk {w m : Word} {g : Nibble} {x : RegIdx} {kk : Byte} (hg : fieldG w &&& fieldG m = g)
    (hx : regBits (fieldX w) &&& regBits (fieldX m) = regBits x) (hkk : fieldKk w &&& fieldKk m = kk) :
    w &&& m = formatXkk g x kk := by
  rw [← formatXkk_fields (w &&& m)]
  simp only [formatXkk, fieldG_and, regBits_fieldX_and, fieldKk_and, hg, hx, hkk]

theorem and_F000 (w : Word) : w &&& 0xF000#16 = formatXyn (fieldG w) 0 0 0 :=
  and_eq_formatXyn BitVec.and_allOnes BitVec.and_zero BitVec.and_zero BitVec.and_zero

theorem and_F00F (w : Word) : w &&& 0xF00F#16 = formatXyn (fieldG w) 0 0 (fieldN w) :=
  and_eq_formatXyn BitVec.and_allOnes BitVec.and_zero BitVec.and_zero BitVec.and_allOnes

theorem and_FF0F (w : Word) : w &&& 0xFF0F#16 = formatXyn (fieldG w) (fieldX w) 0 (fieldN w) :=
  and_eq_formatXyn BitVec.and_allOnes BitVec.and_allOnes BitVec.and_zero BitVec.and_allOnes

theorem and_FFF0 (w : Word) : w &&& 0xFFF0#16 = formatXyn (fieldG w) (fieldX w) (fieldY w) 0 :=
  and_eq_formatXyn BitVec.and_allOnes BitVec.and_allOnes BitVec.and_allOnes BitVec.and_zero

theorem and_F0FF (w : Word) : w &&& 0xF0FF#16 = formatXkk (fieldG w) 0 (fieldKk w) :=
  and_eq_formatXkk BitVec.and_allOnes BitVec.and_zero BitVec.and_allOnes

/-! ## Encoding what a word decodes to (R56, R57) -/

/-- `i` is well formed, and its word is `w` but for the bits that its row ignores. -/
def KeepsWord (w : Word) (i : Instr) : Prop :=
  i.wellFormed = true ∧ encode i &&& significantBits i = w &&& significantBits i

theorem keepsWord_of_encode_eq {w : Word} {i : Instr} (hi : i.wellFormed = true) (h : encode i = w) :
    KeepsWord w i := ⟨hi, by rw [h]⟩

theorem keepsWord_decodeGroup0 {w : Word} (hg : fieldG w = 0x0#4) : KeepsWord w (decodeGroup0 w) := by
  unfold decodeGroup0
  split
  case h_1 hn | h_2 hn => exact ⟨rfl, by simp only [significantBits, and_F00F, hg, hn]; rfl⟩
  case h_3 =>
    refine keepsWord_of_encode_eq ?_ (by rw [encode, ← hg, formatNnn_fields])
    simp_all [Instr.wellFormed, unmapped0, ← toNat_fieldN, ← BitVec.toNat_inj]

theorem keepsWord_decodeGroup8 {w : Word} (hg : fieldG w = 0x8#4) : KeepsWord w (decodeGroup8 w) := by
  unfold decodeGroup8
  split
  case h_7 hn | h_9 hn => exact ⟨rfl, by simp [encode, significantBits, and_FF0F, hg, hn]⟩
  case h_10 =>
    refine keepsWord_of_encode_eq ?_ (by rw [encode, ← hg, formatNnn_fields])
    simp_all [Instr.wellFormed, unmapped8, ← toNat_fieldN, ← BitVec.toNat_inj]
  all_goals
    next hn => exact keepsWord_of_encode_eq rfl (by rw [encode, ← hg, ← hn, formatXyn_fields])

theorem keepsWord_decodeGroupE {w : Word} (hg : fieldG w = 0xE#4) : KeepsWord w (decodeGroupE w) := by
  unfold decodeGroupE
  split
  case h_1 hn | h_2 hn =>
    exact ⟨rfl, by simp [encode, significantBits, and_FF0F, fieldN_formatXkk, hg, hn]⟩
  case h_3 =>
    refine keepsWord_of_encode_eq ?_ (by rw [encode, ← hg, formatNnn_fields])
    simp_all [Instr.wellFormed, unmappedE, ← toNat_fieldN, ← BitVec.toNat_inj]

theorem keepsWord_decodeGroupF {w : Word} (hg : fieldG w = 0xF#4) : KeepsWord w (decodeGroupF w) := by
  unfold decodeGroupF
  split
  case h_10 =>
    refine keepsWord_of_encode_eq ?_ (by rw [encode, ← hg, formatNnn_fields])
    simp_all [Instr.wellFormed, unmappedF, ← toNat_fieldKk, ← BitVec.toNat_inj]
  all_goals
    next hkk => exact keepsWord_of_encode_eq rfl (by rw [encode, ← hg, ← hkk, formatXkk_fields])

theorem keepsWord_decode (w : Word) : KeepsWord w (decode w) := by
  unfold decode
  split
  case h_1 hg => exact keepsWord_decodeGroup0 hg
  case h_9 hg => exact keepsWord_decodeGroup8 hg
  case h_15 hg => exact keepsWord_decodeGroupE hg
  case h_16 =>
    have hg : fieldG w = 0xF#4 := by generalize fieldG w = g at *; revert g; decide
    exact keepsWord_decodeGroupF hg
  case h_6 hg | h_10 hg => exact ⟨rfl, by simp [encode, significantBits, and_FFF0, hg]⟩
  case h_2 hg | h_3 hg | h_11 hg | h_12 hg =>
    exact keepsWord_of_encode_eq rfl (by rw [encode, ← hg, formatNnn_fields])
  case h_4 hg | h_5 hg | h_7 hg | h_8 hg | h_13 hg =>
    exact keepsWord_of_encode_eq rfl (by rw [encode, ← hg, formatXkk_fields])
  case h_14 hg => exact keepsWord_of_encode_eq rfl (by rw [encode, ← hg, formatXyn_fields])

/-- Settles O5, by the arms of the two-level decoder. -/
theorem encodeOfDecodeKeepsSignificantBits : Obligations.EncodeOfDecodeKeepsSignificantBits := keepsWord_decode

/-! ## No word matches two of the rows 1 to 34 (R59) -/

/-- Some bit that both rows fix is 0 in the one and 1 in the other. -/
def OpcodeRow.conflicts (r r' : OpcodeRow) : Bool :=
  r.pattern &&& (r.mask &&& r'.mask) != r'.pattern &&& (r.mask &&& r'.mask)

theorem OpcodeRow.not_hits_of_conflicts {r r' : OpcodeRow} {w : Word} (hc : r.conflicts r' = true)
    (h : r.hits w = true) : ¬ r'.hits w = true := by
  intro h'
  rw [hits, beq_iff_eq] at h h'
  refine bne_iff_ne.1 hc ?_
  rw [← h, ← h']
  ext i hi
  simp only [BitVec.getElem_and]
  grind

theorem definedRows_conflict : definedRows.Pairwise (fun r r' => r.conflicts r' = true) := by decide

theorem definedRows_hits_le_one (w : Word) : (definedRows.filter (·.hits w)).length ≤ 1 := by
  have hconf := definedRows_conflict.filter (·.hits w)
  have hhits : ∀ r ∈ definedRows.filter (·.hits w), r.hits w = true := fun r hr => (List.mem_filter.1 hr).2
  generalize definedRows.filter (·.hits w) = l at hconf hhits
  match l with
  | [] | [_] => simp
  | r :: r' :: rs =>
    have hrr' : r.conflicts r' = true := List.rel_of_pairwise_cons hconf (by simp)
    exact absurd (hhits r' (by simp)) (OpcodeRow.not_hits_of_conflicts hrr' (hhits r (by simp)))

/-! ## Reading the map -/

/-- A row of the defined instructions (`k` counts from 0) that matches is the one that the map gives. -/
theorem mapDecode_of_row {w : Word} (k : Fin 34) (h : definedRows[k].hits w = true) :
    mapDecode w = some (definedRows[k].build w) := by
  have hfind : definedRows.find? (·.hits w) = some definedRows[k] := by
    have hone := definedRows_hits_le_one w
    have hmem : definedRows[k] ∈ definedRows.filter (·.hits w) := List.mem_filter.2 ⟨List.getElem_mem _, h⟩
    rw [← List.head?_filter]
    generalize definedRows.filter (·.hits w) = l at hone hmem
    match l with
    | [r] => rw [List.mem_singleton.1 hmem]; rfl
    | r :: r' :: rs => simp at hone
  rw [mapDecode, opcodeMap, List.find?_append, hfind]
  rfl

theorem mapDecode_of_no_row {w : Word} (h : ∀ r ∈ definedRows, ¬ r.hits w = true) :
    mapDecode w = (fallbackRows.find? (·.hits w)).map (·.build w) := by
  rw [mapDecode, opcodeMap, List.find?_append, List.find?_eq_none.2 h, Option.none_or]

theorem definedRows_fix_fieldG : ∀ r ∈ definedRows, ∀ i : Fin 4, r.mask.getLsbD (12 + i.val) = true := by decide

theorem fieldG_of_hits {r : OpcodeRow} {w : Word} (hr : r ∈ definedRows) (h : r.hits w = true) :
    fieldG w = fieldG r.pattern := fieldG_of_mask (beq_iff_eq.1 h) (definedRows_fix_fieldG r hr)

/-- Where every row of a group selects on `ir[3:0]`, a word whose `ir[3:0]` none of them has is left to the no-ops. -/
theorem mapDecode_of_unmappedN {w : Word} {g : Nibble} {selectors : List Nibble}
    (hrows : ∀ r ∈ definedRows, fieldG r.pattern = g → r.mask = 0xF00F#16 ∧ fieldN r.pattern ∈ selectors)
    (hg : fieldG w = g) (hn : fieldN w ∉ selectors) :
    mapDecode w = (fallbackRows.find? (·.hits w)).map (·.build w) := by
  refine mapDecode_of_no_row fun r hr h => hn ?_
  obtain ⟨hmask, hsel⟩ := hrows r hr ((fieldG_of_hits hr h).symm.trans hg)
  rwa [fieldN_of_mask (beq_iff_eq.1 h) (by rw [hmask]; decide)]

/-- The same of a group that selects on `ir[7:0]`. -/
theorem mapDecode_of_unmappedKk {w : Word} {g : Nibble} {selectors : List Byte}
    (hrows : ∀ r ∈ definedRows, fieldG r.pattern = g → r.mask = 0xF0FF#16 ∧ fieldKk r.pattern ∈ selectors)
    (hg : fieldG w = g) (hkk : fieldKk w ∉ selectors) :
    mapDecode w = (fallbackRows.find? (·.hits w)).map (·.build w) := by
  refine mapDecode_of_no_row fun r hr h => hkk ?_
  obtain ⟨hmask, hsel⟩ := hrows r hr ((fieldG_of_hits hr h).symm.trans hg)
  rwa [fieldKk_of_mask (beq_iff_eq.1 h) (by rw [hmask]; decide)]

/-! ## Each arm of the decoder is a row of the map -/

/-- `OpcodeRow.hits` of a row that fixes `ir[15:12]`; the next two are for rows that fix a selector too. -/
theorem hits_F000 {w : Word} {g : Nibble} (hg : fieldG w = g) : (w &&& 0xF000#16 == formatXyn g 0 0 0) = true := by
  rw [and_F000, hg, beq_self_eq_true]

theorem hits_F00F {w : Word} {g n : Nibble} (hg : fieldG w = g) (hn : fieldN w = n) :
    (w &&& 0xF00F#16 == formatXyn g 0 0 n) = true := by
  rw [and_F00F, hg, hn, beq_self_eq_true]

theorem hits_F0FF {w : Word} {g : Nibble} {kk : Byte} (hg : fieldG w = g) (hkk : fieldKk w = kk) :
    (w &&& 0xF0FF#16 == formatXkk g 0 kk) = true := by
  rw [and_F0FF, hg, hkk, beq_self_eq_true]

theorem mapDecode_group0 {w : Word} (hg : fieldG w = 0x0#4) : mapDecode w = some (decodeGroup0 w) := by
  unfold decodeGroup0
  split
  case h_1 hn => exact mapDecode_of_row 0 (hits_F00F hg hn)
  case h_2 hn => exact mapDecode_of_row 1 (hits_F00F hg hn)
  case h_3 =>
    rw [mapDecode_of_unmappedN (selectors := [0x0, 0xE]) (by decide) hg (by simp_all)]
    simp [fallbackRows, OpcodeRow.hits, and_F000, hg, formatXyn, regBits]

theorem mapDecode_group8 {w : Word} (hg : fieldG w = 0x8#4) : mapDecode w = some (decodeGroup8 w) := by
  unfold decodeGroup8
  split
  case h_1 hn => exact mapDecode_of_row 9 (hits_F00F hg hn)
  case h_2 hn => exact mapDecode_of_row 10 (hits_F00F hg hn)
  case h_3 hn => exact mapDecode_of_row 11 (hits_F00F hg hn)
  case h_4 hn => exact mapDecode_of_row 12 (hits_F00F hg hn)
  case h_5 hn => exact mapDecode_of_row 13 (hits_F00F hg hn)
  case h_6 hn => exact mapDecode_of_row 14 (hits_F00F hg hn)
  case h_7 hn => exact mapDecode_of_row 15 (hits_F00F hg hn)
  case h_8 hn => exact mapDecode_of_row 16 (hits_F00F hg hn)
  case h_9 hn => exact mapDecode_of_row 17 (hits_F00F hg hn)
  case h_10 =>
    rw [mapDecode_of_unmappedN (selectors := [0x0, 0x1, 0x2, 0x3, 0x4, 0x5, 0x6, 0x7, 0xE])
      (by decide) hg (by simp_all)]
    simp [fallbackRows, OpcodeRow.hits, and_F000, hg, formatXyn, regBits]

theorem mapDecode_groupE {w : Word} (hg : fieldG w = 0xE#4) : mapDecode w = some (decodeGroupE w) := by
  unfold decodeGroupE
  split
  case h_1 hn => exact mapDecode_of_row 23 (hits_F00F hg hn)
  case h_2 hn => exact mapDecode_of_row 24 (hits_F00F hg hn)
  case h_3 =>
    rw [mapDecode_of_unmappedN (selectors := [0xE, 0x1]) (by decide) hg (by simp_all)]
    simp [fallbackRows, OpcodeRow.hits, and_F000, hg, formatXyn, regBits]

theorem mapDecode_groupF {w : Word} (hg : fieldG w = 0xF#4) : mapDecode w = some (decodeGroupF w) := by
  unfold decodeGroupF
  split
  case h_1 hkk => exact mapDecode_of_row 25 (hits_F0FF hg hkk)
  case h_2 hkk => exact mapDecode_of_row 26 (hits_F0FF hg hkk)
  case h_3 hkk => exact mapDecode_of_row 27 (hits_F0FF hg hkk)
  case h_4 hkk => exact mapDecode_of_row 28 (hits_F0FF hg hkk)
  case h_5 hkk => exact mapDecode_of_row 29 (hits_F0FF hg hkk)
  case h_6 hkk => exact mapDecode_of_row 30 (hits_F0FF hg hkk)
  case h_7 hkk => exact mapDecode_of_row 31 (hits_F0FF hg hkk)
  case h_8 hkk => exact mapDecode_of_row 32 (hits_F0FF hg hkk)
  case h_9 hkk => exact mapDecode_of_row 33 (hits_F0FF hg hkk)
  case h_10 =>
    rw [mapDecode_of_unmappedKk (selectors := [0x07, 0x0A, 0x15, 0x18, 0x1E, 0x29, 0x33, 0x55, 0x65])
      (by decide) hg (by simp_all)]
    simp [fallbackRows, OpcodeRow.hits, and_F000, hg, formatXyn, regBits]

theorem mapDecode_eq_decode (w : Word) : mapDecode w = some (decode w) := by
  unfold decode
  split
  case h_1 hg => exact mapDecode_group0 hg
  case h_2 hg => exact mapDecode_of_row 2 (hits_F000 hg)
  case h_3 hg => exact mapDecode_of_row 3 (hits_F000 hg)
  case h_4 hg => exact mapDecode_of_row 4 (hits_F000 hg)
  case h_5 hg => exact mapDecode_of_row 5 (hits_F000 hg)
  case h_6 hg => exact mapDecode_of_row 6 (hits_F000 hg)
  case h_7 hg => exact mapDecode_of_row 7 (hits_F000 hg)
  case h_8 hg => exact mapDecode_of_row 8 (hits_F000 hg)
  case h_9 hg => exact mapDecode_group8 hg
  case h_10 hg => exact mapDecode_of_row 18 (hits_F000 hg)
  case h_11 hg => exact mapDecode_of_row 19 (hits_F000 hg)
  case h_12 hg => exact mapDecode_of_row 20 (hits_F000 hg)
  case h_13 hg => exact mapDecode_of_row 21 (hits_F000 hg)
  case h_14 hg => exact mapDecode_of_row 22 (hits_F000 hg)
  case h_15 hg => exact mapDecode_groupE hg
  case h_16 =>
    have hg : fieldG w = 0xF#4 := by generalize fieldG w = g at *; revert g; decide
    exact mapDecode_groupF hg

/-- Settles O6: each arm of the decoder is a matching row of the map, and the rows 1 to 34 exclude each other. -/
theorem decoderAgreesWithOpcodeMap : Obligations.DecoderAgreesWithOpcodeMap := fun w =>
  ⟨mapDecode_eq_decode w, definedRows_hits_le_one w⟩

/-- Every word with the fixed bits of a row of the defined instructions (`k` counts from 0) decodes to that row's
instruction. -/
theorem wordsDecodeTo_of_row (k : Fin 34) :
    Machine.WordsDecodeTo definedRows[k].mask definedRows[k].pattern definedRows[k].build := fun w h =>
  Option.some.inj ((mapDecode_eq_decode w).symm.trans (mapDecode_of_row k (beq_iff_eq.2 h)))

end Sys2Proof
end

section
/-! SUPPORT. The control transfers (`40_control_flow.md`): for the jumps and the skips, that `pc` alone changes, and to
what; for `CALL` and `RET`, what each does on a stack that is full, empty, or neither. -/

namespace Sys2Proof.Machine

/-! ## Jumps -/

theorem onlyPc_setPc (s : State) (w : Word) : OnlyPc s (s.setPc w) := ⟨rfl, fun _ => rfl⟩

/-- Settles O14: the target is the zero-extended `nnn`. -/
theorem jpLoadsPc : Obligations.JpLoadsPc :=
  ⟨wordsDecodeTo_of_row 2, fun nnn s => ⟨_, rfl, toNat_addrWord nnn, onlyPc_setPc s _⟩⟩

/-- The sum of a byte and a 12-bit address fits 16 bits, so the addition does not wrap. -/
theorem toNat_v0Target (s : State) (nnn : Addr12) : (s.v0Target nnn).toNat = (s.getV 0).toNat + nnn.toNat := by
  have hv : (s.getV 0).toNat < 256 := (s.getV 0).isLt
  have hn : nnn.toNat < 4096 := nnn.isLt
  rw [State.v0Target, BitVec.toNat_add, toNat_byteWord, toNat_addrWord]
  exact Nat.mod_eq_of_lt (by omega)

/-- Settles O18: the sum of the two zero-extended operands is exact. -/
theorem jpV0AddsV0Unmasked : Obligations.JpV0AddsV0Unmasked :=
  ⟨wordsDecodeTo_of_row 20, fun nnn s => ⟨_, rfl, toNat_v0Target s nnn, onlyPc_setPc s _⟩⟩

/-! ## Skips -/

theorem onlyPc_skipIf (s : State) (c : Bool) : OnlyPc s (s.skipIf c) := onlyPc_setPc s _

theorem skipIf_pc_of_true {s : State} {c : Bool} (h : c = true) : (s.skipIf c).pc = s.pc + 2 := by
  rw [State.skipIf_pc, if_pos h, State.skipTarget]

theorem skipIf_pc_of_false {s : State} {c : Bool} (h : c = false) : (s.skipIf c).pc = s.pc := by
  rw [State.skipIf_pc, h, if_neg Bool.false_ne_true]

/-- The skip of `SE`, whichever two bytes it compares. -/
theorem skipIf_eq_spec (s : State) (a b : Byte) :
    (a = b → (s.skipIf (a == b)).pc = s.pc + 2) ∧ (a ≠ b → (s.skipIf (a == b)).pc = s.pc) ∧
      OnlyPc s (s.skipIf (a == b)) :=
  ⟨fun h => skipIf_pc_of_true (beq_iff_eq.2 h), fun h => skipIf_pc_of_false (beq_eq_false_iff_ne.2 h),
    onlyPc_skipIf s _⟩

/-- The skip of `SNE`, whichever two bytes it compares. -/
theorem skipIf_ne_spec (s : State) (a b : Byte) :
    (a ≠ b → (s.skipIf (a != b)).pc = s.pc + 2) ∧ (a = b → (s.skipIf (a != b)).pc = s.pc) ∧
      OnlyPc s (s.skipIf (a != b)) :=
  ⟨fun h => skipIf_pc_of_true (bne_iff_ne.2 h), fun h => skipIf_pc_of_false (bne_eq_false_iff_eq.2 h),
    onlyPc_skipIf s _⟩

/-- Settles O16: both are skips on the comparison of `Vx` with `kk`. -/
theorem byteSkipsCompareWithImmediate : Obligations.ByteSkipsCompareWithImmediate :=
  ⟨wordsDecodeTo_of_row 4, wordsDecodeTo_of_row 5, fun x kk s => ⟨_, rfl, skipIf_eq_spec s (s.getV x) kk⟩,
    fun x kk s => ⟨_, rfl, skipIf_ne_spec s (s.getV x) kk⟩⟩

/-- Settles O17: both are skips on the comparison of `Vx` with `Vy`. -/
theorem registerSkipsCompareTwoRegisters : Obligations.RegisterSkipsCompareTwoRegisters :=
  ⟨wordsDecodeTo_of_row 6, wordsDecodeTo_of_row 18,
    fun x y s => ⟨_, rfl, skipIf_eq_spec s (s.getV x) (s.getV y)⟩,
    fun x y s => ⟨_, rfl, skipIf_ne_spec s (s.getV x) (s.getV y)⟩⟩

/-! ## Subroutines -/

theorem execRet_empty {s : State} (h : s.sp.toNat = 0) : execRet s = .next (s.faulted .stackUnderflow 0) := by
  simp only [execRet, pop_empty (BitVec.eq_of_toNat_eq h)]
  rfl

/-- With `k` + 1 slots in use, slot `k` is the one popped. -/
theorem execRet_pops {s : State} {k : Fin 16} (h : s.sp.toNat = k.val + 1) :
    execRet s = .next (({ s with sp := s.sp - 1 } : State).setPc s.stack[k]) := by
  have hpos : 0 < s.sp.toNat := by omega
  have hle : s.sp.toNat ≤ 16 := by omega
  have hk : s.sp.toNat - 1 = k.val := by omega
  simp only [execRet, pop_value hpos hle, hk]
  rfl

theorem execCallNnn_full {s : State} (nnn : Addr12) (h : 16 ≤ s.sp.toNat) :
    execCallNnn nnn s = .next (s.faulted .stackOverflow (BitVec.ofNat 16 s.sp.toNat)) := by
  simp only [execCallNnn, push_full s.pc h, BitVec.ofNat_toNat]
  rfl

/-- With `k` slots in use, slot `k` is the one pushed to. -/
theorem execCallNnn_pushes {s : State} {k : Fin 16} (nnn : Addr12) (h : s.sp.toNat = k.val) :
    execCallNnn nnn s =
      .next (({ s with stack := s.stack.setIfInBounds k s.pc, sp := s.sp + 1 } : State).setPc (addrWord nnn)) := by
  have hlt : s.sp.toNat < 16 := by omega
  simp only [execCallNnn, push_ok s.pc hlt, h]

/-- Settles O13: the empty stack and each number of slots in use. -/
theorem retPopsReturnAddress : Obligations.RetPopsReturnAddress := by
  unfold Obligations.RetPopsReturnAddress
  refine ⟨wordsDecodeTo_of_row 1, fun s => execRet_empty, fun s k h => ⟨_, execRet_pops h, ?_, rfl, rfl, fun _ => rfl⟩⟩
  simp only [State.setPc_sp]
  bv_omega

/-- Settles O15: the full stack and each number of slots in use. -/
theorem callPushesReturnAddress : Obligations.CallPushesReturnAddress := by
  unfold Obligations.CallPushesReturnAddress
  refine ⟨wordsDecodeTo_of_row 3, fun nnn s => execCallNnn_full nnn, fun nnn s k h =>
    ⟨_, execCallNnn_pushes nnn h, ?pushed, ?others, ?sp, toNat_addrWord nnn, rfl, fun _ => rfl⟩⟩
  case pushed => exact Vector.getElem_setIfInBounds_self k.isLt
  case others => exact fun j hj => Vector.getElem_setIfInBounds_ne j.isLt (Fin.val_ne_of_ne hj.symm)
  case sp =>
    simp only [State.setPc_sp]
    bv_omega

/-- Settles O19: `RET` pops the slot that `CALL` pushed to, and the two changes of `sp` cancel. -/
theorem retUndoesCall : Obligations.RetUndoesCall := by
  unfold Obligations.RetUndoesCall
  intro nnn s h
  obtain ⟨k, hk⟩ : ∃ k : Fin 16, s.sp.toNat = k.val := ⟨⟨s.sp.toNat, h⟩, rfl⟩
  refine ⟨_, execCallNnn_pushes nnn hk, fun u hsp hstack => ?_⟩
  have hu : u.sp = s.sp + 1 := hsp
  have hused : u.sp.toNat = k.val + 1 := by rw [hu]; bv_omega
  refine ⟨_, execRet_pops hused, ?pc, ?sp⟩
  case pc =>
    rw [State.setPc_pc, hstack]
    exact Vector.getElem_setIfInBounds_self k.isLt
  case sp => rw [State.setPc_sp, hu, BitVec.add_sub_cancel]

end Sys2Proof.Machine
end

section
/-! SUPPORT. Register load, arithmetic, logic, shift and random instructions (`41_alu.md`): one write to `Vx`, or a
result and then, last, a flag. For each of the two its frame, for each flag its value, and from these the rules. -/

namespace Sys2Proof.Machine

open State

/-! ## The frames -/

/-- A write of `Vx` leaves every other register, and everything else, as it was. -/
theorem setV_frame (s : State) (x : RegIdx) (b : Byte) : SameRegsBut [x] s (s.setV x b) ∧ OnlyV s (s.setV x b) :=
  ⟨fun _ hr => getV_setV_of_ne s b (List.ne_of_not_mem_cons hr), rfl, fun _ => rfl⟩

/-- A write of a result and a flag leaves every register but `Vx` and VF, and everything else, as it was. -/
theorem setResultFlag_frame (s : State) (x : RegIdx) (r f : Byte) :
    SameRegsBut [x, VF] s (s.setResultFlag x r f) ∧ OnlyV s (s.setResultFlag x r f) := by
  refine ⟨fun q hq => ?_, rfl, fun _ => rfl⟩
  obtain ⟨hx, hVF⟩ : q ≠ x ∧ q ≠ VF := by simpa using hq
  exact getV_setResultFlag_of_ne s r f hx hVF

/-! ## Loads, additions of a byte, and logic -/

theorem toNat_getV_setV_add (s : State) (x : RegIdx) (a b : Byte) :
    ((s.setV x (a + b)).getV x).toNat = (a.toNat + b.toNat) % 256 := by
  rw [getV_setV_same, BitVec.toNat_add]

/-- Settles O20: each writes `Vx` alone. -/
theorem immediateLoadAndAdd : Obligations.ImmediateLoadAndAdd :=
  ⟨wordsDecodeTo_of_row 7, wordsDecodeTo_of_row 8, fun x kk s => ⟨_, rfl, getV_setV_same .., setV_frame s x kk⟩,
    fun x kk s => ⟨_, rfl, toNat_getV_setV_add s x (s.getV x) kk, setV_frame s x _⟩⟩

/-- Settles O21: each writes `Vx` alone, and a bit of the combined byte is the combination of the two bits. -/
theorem copyAndLogicCombineBitwise : Obligations.CopyAndLogicCombineBitwise := by
  unfold Obligations.CopyAndLogicCombineBitwise
  refine ⟨wordsDecodeTo_of_row 9, wordsDecodeTo_of_row 10, wordsDecodeTo_of_row 11, wordsDecodeTo_of_row 12,
    fun x y s => ⟨_, rfl, getV_setV_same .., setV_frame s x _⟩,
    fun x y s => ⟨_, rfl, fun j => ?or, setV_frame s x _⟩,
    fun x y s => ⟨_, rfl, fun j => ?and, setV_frame s x _⟩,
    fun x y s => ⟨_, rfl, fun j => ?xor, setV_frame s x _⟩⟩
  case or => rw [getV_setV_same, BitVec.getLsbD_or]
  case and => rw [getV_setV_same, BitVec.getLsbD_and]
  case xor => rw [getV_setV_same, BitVec.getLsbD_xor]

/-! ## The values of the flags -/

theorem carryFlag_of_lt {a b : Byte} (h : 255 < a.toNat + b.toNat) : carryFlag a b = 1 := by
  rw [carryFlag, decide_eq_true h, flagByte_true]

theorem carryFlag_of_le {a b : Byte} (h : a.toNat + b.toNat ≤ 255) : carryFlag a b = 0 := by
  rw [carryFlag, decide_eq_false (Nat.not_lt.2 h), flagByte_false]

theorem greaterFlag_of_lt {a b : Byte} (h : b.toNat < a.toNat) : greaterFlag a b = 1 := by
  rw [greaterFlag, decide_eq_true h, flagByte_true]

theorem greaterFlag_of_le {a b : Byte} (h : a.toNat ≤ b.toNat) : greaterFlag a b = 0 := by
  rw [greaterFlag, decide_eq_false (Nat.not_lt.2 h), flagByte_false]

theorem toNat_flagByte (c : Bool) : (flagByte c).toNat = c.toNat := by cases c <;> rfl

theorem toNat_lowBitFlag (a : Byte) : (lowBitFlag a).toNat = a.toNat % 2 := by
  rw [lowBitFlag, toNat_flagByte, BitVec.getLsbD, Nat.toNat_testBit, Nat.pow_zero, Nat.div_one]

/-- Bit 7 is the highest bit of a byte. -/
theorem toNat_highBitFlag (a : Byte) : (highBitFlag a).toNat = a.toNat / 128 := by
  have hlt : a.toNat < 256 := a.isLt
  rw [highBitFlag, toNat_flagByte, BitVec.getLsbD, Nat.toNat_testBit]
  omega

/-! ## Results with a flag -/

/-- The result stands in `Vx` unless the flag, written last, took its place. -/
theorem toNat_getV_setResultFlag {s : State} {x : RegIdx} {r f : Byte} {n : Nat} (hr : r.toNat = n) (hx : x ≠ VF) :
    ((s.setResultFlag x r f).getV x).toNat = n := by
  rw [getV_setResultFlag_result s r f hx, hr]

theorem getV_flag_of_eq {s : State} {x : RegIdx} {r f c : Byte} (hf : f = c) :
    (s.setResultFlag x r f).getV VF = c := by
  rw [getV_setResultFlag_flag, hf]

/-- Settles O22: the sum is the byte sum, the carry is written last. -/
theorem addSetsCarry : Obligations.AddSetsCarry :=
  ⟨wordsDecodeTo_of_row 13, fun x _ s => ⟨_, rfl, toNat_getV_setResultFlag (BitVec.toNat_add ..),
    fun h => getV_flag_of_eq (carryFlag_of_lt h), fun h => getV_flag_of_eq (carryFlag_of_le h),
    setResultFlag_frame s x _ _⟩⟩

theorem toNat_byte_sub (a b : Byte) : (a - b).toNat = (a.toNat + 256 - b.toNat) % 256 := by
  bv_omega

/-- The subtraction of `SUB` and `SUBN`, whichever two bytes are its minuend and subtrahend. -/
theorem subtraction_spec (s : State) (x : RegIdx) (a b : Byte) :
    ∃ t, (.next (s.setResultFlag x (a - b) (greaterFlag a b)) : Result) = .next t ∧
      (x ≠ VF → (t.getV x).toNat = (a.toNat + 256 - b.toNat) % 256) ∧ (b.toNat < a.toNat → t.getV VF = 1) ∧
      (a.toNat ≤ b.toNat → t.getV VF = 0) ∧ SameRegsBut [x, VF] s t ∧ OnlyV s t :=
  ⟨_, rfl, toNat_getV_setResultFlag (toNat_byte_sub a b), fun h => getV_flag_of_eq (greaterFlag_of_lt h),
    fun h => getV_flag_of_eq (greaterFlag_of_le h), setResultFlag_frame s x _ _⟩

/-- Settles O23: both are the same subtraction, the operands exchanged. -/
theorem subtractionsSetStrictFlag : Obligations.SubtractionsSetStrictFlag :=
  ⟨wordsDecodeTo_of_row 14, wordsDecodeTo_of_row 16, fun x y s => subtraction_spec s x (s.getV x) (s.getV y),
    fun x y s => subtraction_spec s x (s.getV y) (s.getV x)⟩

theorem toNat_byte_shiftRight_one (a : Byte) : (a >>> 1).toNat = a.toNat / 2 := by
  rw [BitVec.toNat_ushiftRight, Nat.shiftRight_eq_div_pow, Nat.pow_one]

theorem toNat_byte_shiftLeft_one (a : Byte) : (a <<< 1).toNat = a.toNat * 2 % 256 := by
  rw [BitVec.toNat_shiftLeft, Nat.shiftLeft_eq, Nat.pow_one]

/-- Settles O24: a shift by one halves or doubles, and the flag is the lowest or the highest bit. -/
theorem shiftsMoveOneBitIntoFlag : Obligations.ShiftsMoveOneBitIntoFlag := by
  unfold Obligations.ShiftsMoveOneBitIntoFlag
  refine ⟨wordsDecodeTo_of_row 15, wordsDecodeTo_of_row 17,
    fun x s => ⟨_, rfl, toNat_getV_setResultFlag (toNat_byte_shiftRight_one _), ?low, setResultFlag_frame s x _ _⟩,
    fun x s => ⟨_, rfl, toNat_getV_setResultFlag (toNat_byte_shiftLeft_one _), ?high, setResultFlag_frame s x _ _⟩⟩
  case low => rw [getV_setResultFlag_flag, toNat_lowBitFlag]
  case high => rw [getV_setResultFlag_flag, toNat_highBitFlag]

/-! ## The random byte -/

/-- Settles O25: the byte drawn, masked, is written after the draw, which leaves the registers alone. -/
theorem rndMasksSomeByte : Obligations.RndMasksSomeByte := by
  unfold Obligations.RndMasksSomeByte
  refine ⟨wordsDecodeTo_of_row 21, fun x kk s => ?_⟩
  have hv : (s.drawn.setV x (s.randByte &&& kk)).getV x = s.randByte &&& kk := getV_setV_same ..
  obtain ⟨hregs, -⟩ := setV_frame s.drawn x (s.randByte &&& kk)
  refine ⟨_, rfl, ⟨s.randByte, hv⟩, fun j hj => ?masked, hregs, rfl, fun _ => rfl, rfl⟩
  case masked => rw [hv, BitVec.getLsbD_and, hj, Bool.and_false]

end Sys2Proof.Machine
end

section
/-! SUPPORT. Index register and memory instructions (`42_index_memory.md`): the value each load writes to `I`; for each
access to memory, its two outcomes by the range check; and, byte by byte, what a store and a load move. -/

namespace Sys2Proof.Machine

/-! ## The index register -/

theorem onlyIndex_setIndex (s : State) (w : Word) : OnlyIndex s (s.setIndex w) := ⟨rfl, fun _ => rfl⟩

theorem toNat_index_add_byteWord (w : Word) (b : Byte) : (w + byteWord b).toNat = (w.toNat + b.toNat) % 65536 := by
  rw [BitVec.toNat_add, toNat_byteWord]

/-- Under legal parameters every glyph lies below 4096, so the address fits `I`. -/
theorem toNat_glyphAddr {s : State} (h : s.params.legal) (b : Byte) :
    (s.glyphAddr b).toNat = s.params.fontBase + 5 * (b.toNat % 16) := by
  obtain ⟨hfont, hload⟩ := h
  have hmask : (b &&& 0x0F).toNat = b.toNat % 16 := Nat.and_two_pow_sub_one_eq_mod b.toNat 4
  rw [State.glyphAddr, BitVec.toNat_ofNat, hmask]
  simp only [Config.glyphBytes, Config.fontSize] at hfont ⊢
  omega

/-- Settles O27: each writes `I` alone. -/
theorem indexLoadsAndAdds : Obligations.IndexLoadsAndAdds :=
  ⟨wordsDecodeTo_of_row 19, wordsDecodeTo_of_row 29, wordsDecodeTo_of_row 30,
    fun nnn s => ⟨_, rfl, toNat_addrWord nnn, onlyIndex_setIndex s _⟩,
    fun x s => ⟨_, rfl, toNat_index_add_byteWord s.index (s.getV x), onlyIndex_setIndex s _⟩,
    fun x s h => ⟨_, rfl, toNat_glyphAddr h (s.getV x), onlyIndex_setIndex s _⟩⟩

/-! ## The two outcomes of each access -/

theorem execLdBVx_ok {x : RegIdx} {s : State} (h : s.base + 2 ≤ 4095) :
    execLdBVx x s = .next (s.setBytes s.base (decimalDigits (s.getV x))) := by
  have hrange : s.base + (decimalDigits (s.getV x)).length ≤ 4096 := by rw [length_decimalDigits]; omega
  simp only [execLdBVx, writeRange_ok (.inr hrange)]

theorem execLdBVx_faults {x : RegIdx} {s : State} (h : 4095 < s.base + 2) :
    execLdBVx x s = .next (s.faulted .memWriteOutOfRange (BitVec.ofNat 16 (max s.base 4096))) := by
  have hrange : ¬ ((decimalDigits (s.getV x)).length = 0 ∨ s.base + (decimalDigits (s.getV x)).length ≤ 4096) := by
    rw [length_decimalDigits]; omega
  simp only [execLdBVx, writeRange_error hrange]
  rfl

theorem execLdMemVx_faults {x : RegIdx} {s : State} (h : 4095 < s.base + x.val) :
    execLdMemVx x s = .next (s.faulted .memWriteOutOfRange (BitVec.ofNat 16 (max s.base 4096))) := by
  have hrange : ¬ ((s.regsUpTo x).length = 0 ∨ s.base + (s.regsUpTo x).length ≤ 4096) := by
    rw [length_regsUpTo]; omega
  simp only [execLdMemVx, writeRange_error hrange]
  rfl

theorem execLdVxMem_ok {x : RegIdx} {s : State} (h : s.base + x.val ≤ 4095) :
    execLdVxMem x s = .next (s.setAllV (s.withRegs (s.bytesAt s.base (x.val + 1)))) := by
  have hrange : s.base + (x.val + 1) ≤ 4096 := by omega
  simp only [execLdVxMem, readRange_ok (.inr hrange)]

theorem execLdVxMem_faults {x : RegIdx} {s : State} (h : 4095 < s.base + x.val) :
    execLdVxMem x s = .next (s.faulted .memReadOutOfRange (BitVec.ofNat 16 (max s.base 4096))) := by
  have hrange : ¬ (x.val + 1 = 0 ∨ s.base + (x.val + 1) ≤ 4096) := by omega
  simp only [execLdVxMem, readRange_error hrange]
  rfl

/-! ## Stores -/

/-- Each digit fits a byte, so each stored byte is its digit. -/
theorem toNat_decimalDigits (b : Byte) :
    (decimalDigits b).map BitVec.toNat = [b.toNat / 100, b.toNat / 10 % 10, b.toNat % 10] := by
  have hb : b.toNat < 256 := b.isLt
  simp only [decimalDigits, List.map_cons, List.map_nil, BitVec.toNat_ofNat, List.cons.injEq, and_true]
  omega

theorem decimalDigits_fit {a : Nat} {b : Byte} (h : a + 2 ≤ 4095) :
    a + (decimalDigits b).length ≤ Config.memSize := by
  rw [length_decimalDigits]; simp only [Config.memSize]; omega

/-- The three digits are in memory after the store, in order. -/
theorem toNat_byteAt_setBytes_decimalDigits {s : State} {a k n : Nat} {b : Byte} (hm : s.memWf = true)
    (ha : a + 2 ≤ 4095) (hk : [b.toNat / 100, b.toNat / 10 % 10, b.toNat % 10][k]? = some n) :
    ((s.setBytes a (decimalDigits b)).byteAt (a + k)).toNat = n := by
  rw [← toNat_decimalDigits, List.getElem?_map, Option.map_eq_some_iff] at hk
  obtain ⟨d, hd, rfl⟩ := hk
  rw [byteAt_setBytes_of_getElem? hm (decimalDigits_fit ha) hd]

/-- Settles O28: the digits are stored one after the other, or the range check fails before any is. -/
theorem bcdStoresThreeDigits : Obligations.BcdStoresThreeDigits := by
  unfold Obligations.BcdStoresThreeDigits
  refine ⟨wordsDecodeTo_of_row 31, fun x s hm hb => ⟨_, execLdBVx_ok hb, ?hundreds, ?tens, ?ones, ?frame⟩,
    fun _ _ => execLdBVx_faults⟩
  case hundreds => exact toNat_byteAt_setBytes_decimalDigits (k := 0) hm hb rfl
  case tens => exact toNat_byteAt_setBytes_decimalDigits hm hb rfl
  case ones => exact toNat_byteAt_setBytes_decimalDigits hm hb rfl
  case frame => exact onlyMem_setBytes hm (decimalDigits_fit hb)

theorem regsUpTo_fit {s : State} {x : RegIdx} {a : Nat} (h : a + x.val ≤ 4095) :
    a + (s.regsUpTo x).length ≤ Config.memSize := by
  rw [length_regsUpTo]; simp only [Config.memSize]; omega

theorem byteAt_setBytes_regsUpTo {s : State} {x k : RegIdx} {a : Nat} (hm : s.memWf = true) (h : a + x.val ≤ 4095)
    (hk : k ≤ x) : (s.setBytes a (s.regsUpTo x)).byteAt (a + k.val) = s.getV k :=
  byteAt_setBytes_of_getElem? hm (regsUpTo_fit h) (getElem?_regsUpTo s x k hk)

/-- Settles O29: the registers are stored one after the other, or the range check fails before any is. -/
theorem storeRegistersUpToVx : Obligations.StoreRegistersUpToVx := by
  unfold Obligations.StoreRegistersUpToVx
  refine ⟨wordsDecodeTo_of_row 32, fun x s hm hb => ⟨_, execLdMemVx_ok hb, fun k => ?stored, ?frame⟩,
    fun _ _ => execLdMemVx_faults⟩
  case stored => exact byteAt_setBytes_regsUpTo hm hb
  case frame => simpa only [length_regsUpTo] using onlyMem_setBytes hm (regsUpTo_fit (s := s) hb)

/-! ## Loads -/

theorem onlyV_setAllV (s : State) (v : Vector Byte 16) : OnlyV s (s.setAllV v) := ⟨rfl, fun _ => rfl⟩

/-- A load of `n` bytes replaces the first `n` registers alone. -/
theorem getV_setAllV_withRegs_bytesAt (s : State) (a n : Nat) (k : RegIdx) :
    (s.setAllV (s.withRegs (s.bytesAt a n))).getV k = if k.val < n then s.byteAt (a + k.val) else s.getV k := by
  rw [State.getV, State.setAllV_v, getElem_withRegs, getElem?_bytesAt]
  split
  · exact Option.getD_some
  · exact Option.getD_none

theorem getV_loaded (s : State) (a : Nat) {x k : RegIdx} (h : k ≤ x) :
    (s.setAllV (s.withRegs (s.bytesAt a (x.val + 1)))).getV k = s.byteAt (a + k.val) := by
  rw [getV_setAllV_withRegs_bytesAt, if_pos (Nat.lt_succ_of_le h)]

theorem getV_above_loaded (s : State) (a : Nat) {x k : RegIdx} (h : x < k) :
    (s.setAllV (s.withRegs (s.bytesAt a (x.val + 1)))).getV k = s.getV k := by
  rw [getV_setAllV_withRegs_bytesAt, if_neg (Nat.not_lt.2 h)]

/-- Settles O30: the loaded bytes replace V0 to Vx alone, or the range check fails before any is read. -/
theorem loadRegistersUpToVx : Obligations.LoadRegistersUpToVx :=
  ⟨wordsDecodeTo_of_row 33,
    fun _ s hb => ⟨_, execLdVxMem_ok hb, fun _ => getV_loaded s s.base, fun _ => getV_above_loaded s s.base,
      onlyV_setAllV s _⟩,
    fun _ _ => execLdVxMem_faults⟩

/-! ## A store and then a load -/

/-- Settles O31: the registers in between change neither `I` nor memory, so the load reads what was stored. -/
theorem storeThenLoadRestoresRegisters : Obligations.StoreThenLoadRestoresRegisters := by
  unfold Obligations.StoreThenLoadRestoresRegisters
  intro x s v hm hb
  refine ⟨_, _, execLdMemVx_ok hb, execLdVxMem_ok (s := (s.setBytes s.base (s.regsUpTo x)).setAllV v) hb,
    fun k hk => ?restored, fun k hk => ?kept⟩
  case restored => exact (getV_loaded _ s.base hk).trans (byteAt_setBytes_regsUpTo hm hb hk)
  case kept => exact getV_above_loaded _ s.base hk

end Sys2Proof.Machine
end

section
/-! SUPPORT. The display instructions (`43_display.md`): `CLS`; then of `DRW` its two outcomes by the range check, the
state it ends in (each covered pixel toggled, the flag of the collision), and what a second drawing makes of that. -/

namespace Sys2Proof.Machine

open State

/-! ## Clearing -/

/-- Settles O33: the framebuffer alone is replaced, by one with every pixel off. -/
theorem clsTurnsEveryPixelOff : Obligations.ClsTurnsEveryPixelOff :=
  ⟨wordsDecodeTo_of_row 0, fun _ => ⟨_, rfl, pixel_clearFb, rfl, fun _ => rfl⟩⟩

/-! ## The two outcomes of `DRW` -/

/-- The state in which `DRW` ends when every row is in memory: the sprite drawn, then VF written (R111). -/
def State.withSprite (s : State) (edge : Config.DrawEdge) (x y : RegIdx) (n : Nibble) : State :=
  let d := drawSprite edge (spriteX (s.getV x)) (spriteY (s.getV y)) (s.bytesAt s.base n.toNat) s.fb
  (s.setFb d.fb).setV VF (flagByte d.hit)

section
variable {edge : Config.DrawEdge} {x y : RegIdx} {n : Nibble} {s : State} {px : Fin 64} {py : Fin 32}

theorem drawWith_ok (h : n.toNat = 0 ∨ s.base + n.toNat - 1 ≤ 4095) :
    s.drawWith edge x y n = .next (s.withSprite edge x y n) := by
  have hrange : n.toNat = 0 ∨ s.base + n.toNat ≤ 4096 := by omega
  simp only [State.drawWith, readRange_ok hrange, State.withSprite]

theorem drawWith_faults (hn : n.toNat ≠ 0) (h : 4095 < s.base + n.toNat - 1) :
    s.drawWith edge x y n = .next (s.faulted .memReadOutOfRange (BitVec.ofNat 16 (max s.base 4096))) := by
  have hrange : ¬ (n.toNat = 0 ∨ s.base + n.toNat ≤ 4096) := by omega
  simp only [State.drawWith, readRange_error hrange]
  rfl

/-! ## The state after a drawing -/

/-- A sprite has at most 15 rows, fewer than the display: no two of its bits land on one pixel. -/
theorem length_spriteBytes_le (s : State) (a : Nat) (n : Nibble) : (s.bytesAt a n.toNat).length ≤ 32 := by
  have hn : n.toNat < 16 := n.isLt
  rw [length_bytesAt]
  omega

theorem pixel_withSprite_of_covers (h : s.Covers edge x y n.toNat px py) :
    pixel (s.withSprite edge x y n).fb px py = !pixel s.fb px py := by
  obtain ⟨hpixel, -⟩ := drawSprite_spec s.fb (length_spriteBytes_le s s.base n)
  rw [State.withSprite, setV_fb, setFb_fb, hpixel, decide_eq_true (mem_spriteCells_bytesAt.2 h), Bool.xor_true]

theorem pixel_withSprite_of_not_covers (h : ¬ s.Covers edge x y n.toNat px py) :
    pixel (s.withSprite edge x y n).fb px py = pixel s.fb px py := by
  obtain ⟨hpixel, -⟩ := drawSprite_spec s.fb (length_spriteBytes_le s s.base n)
  rw [State.withSprite, setV_fb, setFb_fb, hpixel, decide_eq_false (mt mem_spriteCells_bytesAt.1 h), Bool.xor_false]

theorem flagByte_eq_one_iff {c : Bool} : flagByte c = 1 ↔ c = true := by cases c <;> decide

theorem flagByte_eq_zero_iff {c : Bool} : flagByte c = 0 ↔ ¬ c = true := by cases c <;> decide

/-- The collision flag: VF says whether a covered pixel was on. -/
theorem getV_VF_withSprite (s : State) (edge : Config.DrawEdge) (x y : RegIdx) (n : Nibble) :
    ((s.withSprite edge x y n).getV VF = 1 ↔
      ∃ px py, s.Covers edge x y n.toNat px py ∧ pixel s.fb px py = true) ∧
    ((s.withSprite edge x y n).getV VF = 0 ↔
      ¬ ∃ px py, s.Covers edge x y n.toNat px py ∧ pixel s.fb px py = true) := by
  obtain ⟨-, hhit⟩ := drawSprite_spec (edge := edge) (xpos := spriteX (s.getV x)) (ypos := spriteY (s.getV y)) s.fb
    (length_spriteBytes_le s s.base n)
  simp only [mem_spriteCells_bytesAt] at hhit
  rw [State.withSprite, getV_setV_same, flagByte_eq_one_iff, flagByte_eq_zero_iff, hhit]
  exact ⟨Iff.rfl, Iff.rfl⟩

theorem sameRegsBut_withSprite (s : State) (edge : Config.DrawEdge) (x y : RegIdx) (n : Nibble) :
    SameRegsBut [VF] s (s.withSprite edge x y n) :=
  fun _ hr => getV_setV_of_ne (s.setFb _) _ (List.ne_of_not_mem_cons hr)

theorem sameMemory_withSprite (s : State) (edge : Config.DrawEdge) (x y : RegIdx) (n : Nibble) :
    SameMemory s (s.withSprite edge x y n) := fun _ => rfl

end

/-- Settles O34: the cells the sprite's bits land on are toggled once each, or the range check fails before any is. -/
theorem drwTogglesCoveredPixels : Obligations.DrwTogglesCoveredPixels := by
  unfold Obligations.DrwTogglesCoveredPixels
  refine ⟨wordsDecodeTo_of_row 22, fun _ _ _ _ => rfl, fun edge x y n s hb => ?draws,
    fun _ _ _ _ _ => drawWith_faults⟩
  case draws =>
    obtain ⟨hone, hzero⟩ := getV_VF_withSprite s edge x y n
    refine ⟨_, drawWith_ok hb, fun _ _ => pixel_withSprite_of_covers, fun _ _ => pixel_withSprite_of_not_covers,
      hone.2, fun hoff => hzero.2 ?_, sameRegsBut_withSprite s edge x y n, rfl, sameMemory_withSprite s edge x y n⟩
    rintro ⟨px, py, hcov, hon⟩
    exact Bool.false_ne_true ((hoff px py hcov).symm.trans hon)

/-! ## Drawing twice -/

section
variable {edge : Config.DrawEdge} {x y : RegIdx} {n : Nibble} {s : State}

/-- A drawing keeps `I` and memory, so with its coordinates kept the sprite covers the same pixels again. -/
theorem covers_withSprite (hx : ((s.withSprite edge x y n).getV x).toNat % 64 = (s.getV x).toNat % 64)
    (hy : ((s.withSprite edge x y n).getV y).toNat % 32 = (s.getV y).toNat % 32) (px : Fin 64) (py : Fin 32) :
    (s.withSprite edge x y n).Covers edge x y n.toNat px py ↔ s.Covers edge x y n.toNat px py := by
  have hindex : (s.withSprite edge x y n).index = s.index := rfl
  simp only [State.Covers, hindex, sameMemory_withSprite s edge x y n _, hx, hy]

/-- Two drawings of the same pixels undo each other. -/
theorem fb_withSprite_twice
    (hcov : ∀ px py, (s.withSprite edge x y n).Covers edge x y n.toNat px py ↔ s.Covers edge x y n.toNat px py) :
    ((s.withSprite edge x y n).withSprite edge x y n).fb = s.fb := by
  refine fb_ext fun px py => ?_
  by_cases h : s.Covers edge x y n.toNat px py
  · rw [pixel_withSprite_of_covers ((hcov px py).2 h), pixel_withSprite_of_covers h, Bool.not_not]
  · rw [pixel_withSprite_of_not_covers (mt (hcov px py).1 h), pixel_withSprite_of_not_covers h]

/-- Where the first drawing fell on pixels that were off, the second meets every pixel of the sprite on. -/
theorem getV_VF_withSprite_twice
    (hcov : ∀ px py, (s.withSprite edge x y n).Covers edge x y n.toNat px py ↔ s.Covers edge x y n.toNat px py)
    (hoff : ∀ px py, s.Covers edge x y n.toNat px py → pixel s.fb px py = false) :
    ((s.withSprite edge x y n).withSprite edge x y n).getV VF = 1 ↔
      ∃ px py, s.Covers edge x y n.toNat px py := by
  have hon : ∀ px py, s.Covers edge x y n.toNat px py → pixel (s.withSprite edge x y n).fb px py = true :=
    fun px py h => by rw [pixel_withSprite_of_covers h, hoff px py h, Bool.not_false]
  obtain ⟨hone, -⟩ := getV_VF_withSprite (s.withSprite edge x y n) edge x y n
  simp only [hone, hcov, and_iff_left_of_imp (hon _ _)]

end

/-- Settles O35: the second drawing toggles the pixels the first one did. -/
theorem drawingTwiceRestoresPixels : Obligations.DrawingTwiceRestoresPixels := by
  unfold Obligations.DrawingTwiceRestoresPixels
  intro x y n s hb
  refine ⟨_, drawWith_ok hb, fun hx hy => ?_⟩
  have hcov := covers_withSprite hx hy
  exact ⟨_, drawWith_ok hb, fb_withSprite_twice hcov, getV_VF_withSprite_twice hcov⟩

end Sys2Proof.Machine
end

section
/-! SUPPORT. Keypad and timer instructions (`44_keypad_timers.md`): the skips and the wait by what the snapshot holds,
each outcome an equation; the moves write one field each; and the cycles around `LD Vx,DT` and the wait. -/

namespace Sys2Proof.Machine

open State

/-! ## The skips on a key -/

/-- A register that holds `k` names key `k`. -/
theorem keyAt_of_toNat_eq (s : State) {b : Byte} {k : Fin 16} (h : b.toNat = k.val) : s.keyAt b = some s.key[k] := by
  rw [State.keyAt, h]
  exact Vector.getElem?_eq_getElem k.isLt

theorem execSkpVx_key {x : RegIdx} {s : State} {k : Fin 16} (h : (s.getV x).toNat = k.val) :
    execSkpVx x s = .next (s.skipIf s.key[k]) := by
  simp only [execSkpVx, keyAt_of_toNat_eq s h]

theorem execSknpVx_key {x : RegIdx} {s : State} {k : Fin 16} (h : (s.getV x).toNat = k.val) :
    execSknpVx x s = .next (s.skipIf (!s.key[k])) := by
  simp only [execSknpVx, keyAt_of_toNat_eq s h]

/-- What both skips answer for a number that names no key. -/
theorem raise_byteWord (s : State) (c : Cause) (b : Byte) :
    s.raise c (byteWord b) = .next (s.faulted c (BitVec.ofNat 16 b.toNat)) := by
  rw [BitVec.ofNat_toNat]
  rfl

theorem execSkpVx_faults {x : RegIdx} {s : State} (h : 15 < (s.getV x).toNat) :
    execSkpVx x s = .next (s.faulted .keyIndexOutOfRange (BitVec.ofNat 16 (s.getV x).toNat)) := by
  simp only [execSkpVx, keyAt_none h, raise_byteWord]

theorem execSknpVx_faults {x : RegIdx} {s : State} (h : 15 < (s.getV x).toNat) :
    execSknpVx x s = .next (s.faulted .keyIndexOutOfRange (BitVec.ofNat 16 (s.getV x).toNat)) := by
  simp only [execSknpVx, keyAt_none h, raise_byteWord]

/-- Settles O36: a number of a key, and one above 15. -/
theorem keySkipsTestTheSnapshot : Obligations.KeySkipsTestTheSnapshot := by
  unfold Obligations.KeySkipsTestTheSnapshot
  refine ⟨wordsDecodeTo_of_row 23, wordsDecodeTo_of_row 24, fun x s k h => ?skp, fun x s k h => ?sknp,
    fun x s h => ⟨execSkpVx_faults h, execSknpVx_faults h⟩⟩
  case skp => exact ⟨_, execSkpVx_key h, skipIf_pc_of_true, skipIf_pc_of_false, onlyPc_skipIf s _⟩
  case sknp =>
    exact ⟨_, execSknpVx_key h, fun hk => skipIf_pc_of_true (by rw [hk]; rfl),
      fun hk => skipIf_pc_of_false (by rw [hk]; rfl), onlyPc_skipIf s _⟩

/-! ## The timers -/

/-- Settles O37: each writes one field; in the cycle of `LD Vx,DT` the tick follows the read. -/
theorem timerMoves : Obligations.TimerMoves := by
  unfold Obligations.TimerMoves
  refine ⟨wordsDecodeTo_of_row 25, wordsDecodeTo_of_row 27, wordsDecodeTo_of_row 28, fun x s => ?read,
    fun x s h => ?readCycle, fun x s => ?writeDt, fun x s => ?writeSt⟩
  case read => exact ⟨_, rfl, getV_setV_same .., setV_frame s x s.dt⟩
  case readCycle =>
    have hstep : step s = .next (s.entered.setV x s.dt).tick := step_of_completed h rfl h.1
    exact ⟨_, hstep, getV_setV_same .., toNat_countDown s.dt⟩
  case writeDt => exact ⟨_, rfl, rfl, rfl, fun _ => rfl⟩
  case writeSt => exact ⟨_, rfl, rfl, rfl, fun _ => rfl⟩

/-! ## The wait for a key -/

theorem execLdVxK_pressed (x : RegIdx) {s : State} {k : Fin 16} (hk : s.key[k] = true)
    (hleast : ∀ j, j < k → s.key[j] = false) : execLdVxK x s = .next (s.setV x (BitVec.ofNat 8 k.val)) := by
  simp only [execLdVxK, firstPressed_some hk hleast]

theorem execLdVxK_waits (x : RegIdx) {s : State} (h : ∀ k : Fin 16, s.key[k] = false) :
    execLdVxK x s = .next (s.setPc (s.pc - 2)) := by
  simp only [execLdVxK, firstPressed_none h]

/-- A number of a key fits a register. -/
theorem toNat_ofNat_key (k : Fin 16) : (BitVec.ofNat 8 k.val).toNat = k.val :=
  Nat.mod_eq_of_lt (by omega)

/-- Settles O39: the least key, or the wait; in the cycle of the wait the step back cancels the advance of the fetch. -/
theorem keyWaitTakesLeastKey : Obligations.KeyWaitTakesLeastKey := by
  unfold Obligations.KeyWaitTakesLeastKey
  refine ⟨wordsDecodeTo_of_row 26, fun x s k hk hleast => ?pressed, fun x s h => ?waits, fun x s hs h => ?waitCycle⟩
  case pressed =>
    exact ⟨_, execLdVxK_pressed x hk hleast, by rw [getV_setV_same, toNat_ofNat_key], setV_frame s x _⟩
  case waits => exact ⟨_, execLdVxK_waits x h, rfl, onlyPc_setPc s _⟩
  case waitCycle =>
    have hstep : step s = .next (s.entered.setPc (s.pc + 2 - 2)).tick :=
      step_of_completed hs (execLdVxK_waits x h) hs.1
    exact ⟨_, hstep, BitVec.add_sub_cancel .., rfl, toNat_countDown s.dt, toNat_countDown s.st⟩

end Sys2Proof.Machine
end

section
/-! SUPPORT. The no-ops (`45_nop.md`): a word with an unmapped selector is rebuilt from its group and its low twelve
bits, and the cycle of a no-op is the entry into it and the tick, with nothing between. -/

namespace Sys2Proof

/-! ## The words with an unmapped selector (R58) -/

/-- A word decodes as the word that its group and its low twelve bits make. -/
theorem decode_of_formatNnn_fields {w : Word} {i : Instr} (g : Nibble) (hg : (fieldG w).toNat = g.toNat)
    (h : decode (formatNnn g (fieldNnn w)) = i) : decode w = i := by
  rwa [← BitVec.eq_of_toNat_eq hg, formatNnn_fields] at h

theorem unmapped0_fieldNnn {w : Word} (h : (fieldN w).toNat ∉ [0x0, 0xE]) : unmapped0 (fieldNnn w) = true := by
  simpa [unmapped0, ← toNat_fieldN] using h

theorem unmapped8_fieldNnn {w : Word} (h : (fieldN w).toNat ∉ [0x0, 0x1, 0x2, 0x3, 0x4, 0x5, 0x6, 0x7, 0xE]) :
    unmapped8 (fieldNnn w) = true := by
  simpa [unmapped8, ← toNat_fieldN] using h

theorem unmappedE_fieldNnn {w : Word} (h : (fieldN w).toNat ∉ [0xE, 0x1]) : unmappedE (fieldNnn w) = true := by
  simpa [unmappedE, ← toNat_fieldN] using h

theorem unmappedF_fieldNnn {w : Word}
    (h : (fieldKk w).toNat ∉ [0x07, 0x0A, 0x15, 0x18, 0x1E, 0x29, 0x33, 0x55, 0x65]) :
    unmappedF (fieldNnn w) = true := by
  simpa [unmappedF, ← toNat_fieldKk] using h

end Sys2Proof

namespace Sys2Proof.Machine

/-! ## The no-ops -/

/-- The no-op of each group changes nothing. -/
theorem exec_nop {low : Addr12} {i : Instr}
    (h : i = .nopGroup0 low ∨ i = .nopGroup8 low ∨ i = .nopGroupE low ∨ i = .nopGroupF low) (s : State) :
    exec i s = .next s := by
  obtain rfl | rfl | rfl | rfl := h <;> rfl

/-- Settles O40: an unmapped word is rebuilt from its fields; a no-op's cycle is the entry and the tick. -/
theorem unmappedWordsDoNothing : Obligations.UnmappedWordsDoNothing := by
  unfold Obligations.UnmappedWordsDoNothing
  refine ⟨fun w hg hn => ?group0, fun w hg hn => ?group8, fun w hg hn => ?groupE, fun w hg hkk => ?groupF,
    fun low s => ⟨exec_nop (.inl rfl) s, exec_nop (.inr (.inl rfl)) s, exec_nop (.inr (.inr (.inl rfl))) s,
      exec_nop (.inr (.inr (.inr rfl))) s⟩, fun low i s hi hs => ?cycle⟩
  case group0 => exact decode_of_formatNnn_fields 0x0 hg (decode_nopGroup0 (unmapped0_fieldNnn hn))
  case group8 => exact decode_of_formatNnn_fields 0x8 hg (decode_nopGroup8 (unmapped8_fieldNnn hn))
  case groupE => exact decode_of_formatNnn_fields 0xE hg (decode_nopGroupE (unmappedE_fieldNnn hn))
  case groupF => exact decode_of_formatNnn_fields 0xF hg (decode_nopGroupF (unmappedF_fieldNnn hkk))
  case cycle =>
    have hstep : step s = .next s.entered.tick := step_of_completed hs (exec_nop hi s.entered) hs.1
    exact ⟨_, hstep, rfl, rfl, toNat_countDown s.dt, toNat_countDown s.st, fun _ => rfl, rfl⟩

end Sys2Proof.Machine
end

section
/-! SUPPORT. The exceptions (`60_exceptions.md`): which instruction raises which cause and when (R141), that a halted
core stays halted (R146), and where an instruction stops the model (log entry 7). -/

namespace Sys2Proof.Machine

/-! ## The halted core -/

/-- Settles O11: a latched fault makes each cycle the identity; reset is the reset state but for the host's inputs and
the count of draws. -/
theorem haltedCoreStaysAsItIs : Obligations.HaltedCoreStaysAsItIs :=
  fun s _ hf => ⟨run_halted hf, rfl, s.keysIn, s.randIn, s.randDraws + 1, rfl⟩

/-! ## The causes and their raisers -/

/-- The table of R141 without its row of the fetch: the instruction raises the cause on the condition. -/
inductive RaisesOn (s : State) : Instr → Cause → Prop where
  | draw {x y : RegIdx} {n : Nibble} (hn : n ≠ 0) (h : 4095 < s.base + n.toNat - 1) :
      RaisesOn s (.drwVxVyN x y n) .memReadOutOfRange
  | load {x : RegIdx} (h : 4095 < s.base + x.val) : RaisesOn s (.ldVxMem x) .memReadOutOfRange
  | bcd {x : RegIdx} (h : 4095 < s.base + 2) : RaisesOn s (.ldBVx x) .memWriteOutOfRange
  | store {x : RegIdx} (h : 4095 < s.base + x.val) : RaisesOn s (.ldMemVx x) .memWriteOutOfRange
  | call {nnn : Addr12} (h : 16 ≤ s.sp.toNat) : RaisesOn s (.callNnn nnn) .stackOverflow
  | ret (h : s.sp = 0) : RaisesOn s .ret .stackUnderflow
  | skp {x : RegIdx} (h : 15 < (s.getV x).toNat) : RaisesOn s (.skpVx x) .keyIndexOutOfRange
  | sknp {x : RegIdx} (h : 15 < (s.getV x).toNat) : RaisesOn s (.sknpVx x) .keyIndexOutOfRange

/-- An instruction that latches a fault in a state with a clear latch does so by a row of the table: each raiser latches
on its condition alone, and everything else an instruction does keeps the latch. -/
theorem raisesOn_of_exec_latches {i : Instr} {s t : State} {f : FaultRecord} (hs : s.fault = none)
    (h : exec i s = .next t) (hf : t.fault = some f) : RaisesOn s i f.cause := by
  have hchanged : t.fault ≠ s.fault := by rw [hs, hf]; exact Option.some_ne_none f
  cases i with
  | drwVxVyN x y n =>
    obtain ⟨hn, hb, rfl⟩ | ⟨-, d, rfl⟩ := drawWith_cases h
    · cases hf; exact .draw hn hb
    · exact absurd rfl hchanged
  | ldVxMem x =>
    obtain ⟨hb, rfl⟩ | ⟨-, rfl⟩ := execLdVxMem_cases h
    · cases hf; exact .load hb
    · exact absurd (State.setAllV_fault ..) hchanged
  | ldBVx x =>
    obtain ⟨hb, rfl⟩ | ⟨-, rfl⟩ := execLdBVx_cases h
    · cases hf; exact .bcd hb
    · exact absurd rfl hchanged
  | ldMemVx x =>
    obtain ⟨hb, rfl⟩ | ⟨-, rfl⟩ := execLdMemVx_cases h
    · cases hf; exact .store hb
    · exact absurd rfl hchanged
  | callNnn nnn =>
    obtain ⟨hsp, rfl⟩ | ⟨-, rfl⟩ := execCallNnn_cases h
    · cases hf; exact .call hsp
    · exact absurd rfl hchanged
  | ret =>
    obtain ⟨hsp, rfl⟩ | ⟨k, -, rfl⟩ := execRet_cases h
    · cases hf; exact .ret hsp
    · exact absurd rfl hchanged
  | skpVx x =>
    obtain ⟨hx, rfl⟩ | ⟨-, b, rfl⟩ := execSkpVx_cases h
    · cases hf; exact .skp hx
    · exact absurd rfl hchanged
  | sknpVx x =>
    obtain ⟨hx, rfl⟩ | ⟨-, b, rfl⟩ := execSknpVx_cases h
    · cases hf; exact .sknp hx
    · exact absurd rfl hchanged
  | ldVxK x => obtain rfl | ⟨k, rfl⟩ := execLdVxK_cases h <;> exact absurd rfl hchanged
  | _ => exact absurd (congrArg State.fault (eq_of_next h)) hchanged

/-- An instruction that no row of the table lets raise, in the state it begins in, completes with the latch clear; `RET`
apart, which can also stop (log entry 7). -/
theorem exec_completes_unlatched {i : Instr} {s : State} (hs : s.fault = none) (hret : i ≠ .ret)
    (hi : ∀ c, ¬ RaisesOn s i c) : ∃ t, exec i s = .next t ∧ t.fault = none := by
  obtain ⟨t, ht⟩ := exec_completes (s := s) fun e => absurd e hret
  refine ⟨t, ht, Option.eq_none_iff_forall_ne_some.mpr fun f hf => ?_⟩
  exact hi f.cause (raisesOn_of_exec_latches hs ht hf)

/-- Settles O41: the fetch is the first check of a cycle; an instruction latches only by a row of the table, whose
instructions are the eight raisers. -/
theorem faultCausesAndTheirRaisers : Obligations.FaultCausesAndTheirRaisers := by
  unfold Obligations.FaultCausesAndTheirRaisers
  refine ⟨fun s hs hp => step_fetchFault hs hp, fun i s t ⟨c, info⟩ hs h hf => ?raisers,
    fun i s hs hret hcall hdraw hother => exec_completes_unlatched hs hret fun c hc => ?others, rfl⟩
  case raisers =>
    have hrow : RaisesOn s i c := raisesOn_of_exec_latches hs h hf
    cases hrow with
    | draw hn hb => exact .inl ⟨rfl, .inl ⟨_, _, _, rfl, hn, hb⟩⟩
    | load hb => exact .inl ⟨rfl, .inr ⟨_, rfl, hb⟩⟩
    | bcd hb => exact .inr (.inl ⟨rfl, .inl ⟨_, rfl, hb⟩⟩)
    | store hb => exact .inr (.inl ⟨rfl, .inr ⟨_, rfl, hb⟩⟩)
    | call hsp => exact .inr (.inr (.inl ⟨rfl, ⟨_, rfl⟩, hsp⟩))
    | ret hsp => exact .inr (.inr (.inr (.inl ⟨rfl, rfl, hsp⟩)))
    | skp hx => exact .inr (.inr (.inr (.inr ⟨rfl, _, .inl rfl, hx⟩)))
    | sknp hx => exact .inr (.inr (.inr (.inr ⟨rfl, _, .inr rfl, hx⟩)))
  case others =>
    cases hc with
    | draw => exact hdraw _ _ _ rfl
    | call => exact hcall _ rfl
    | ret => exact hret rfl
    | @load x | @bcd x | @store x | @skp x | @sknp x => simpa using hother x

/-! ## Where an instruction stops the model -/

/-- `RET` with `sp` above 16 stops: the slot it would pop does not exist (log entry 7). -/
theorem execRet_illegalSp {s : State} (h : 16 < s.sp.toNat) : execRet s = .fault .stackPointerIllegal := by
  simp only [execRet, pop_noSlot h]

/-- Settles O45: `RET` with an `sp` above 16 is the one instruction that does not answer next. -/
theorem onlyRetStopsAndOnlyOnIllegalSp : Obligations.OnlyRetStopsAndOnlyOnIllegalSp :=
  ⟨fun _ _ hsp => exec_completes fun _ => hsp, fun _ _ _ hi => exec_completes fun e => absurd e hi,
    fun _ hsp => execRet_illegalSp hsp⟩

end Sys2Proof.Machine
end

section
/-! SUPPORT. Reset, load and the end of a run (`70_reset_and_hazards.md`): the two outcomes of the load by the length of
the image, and what the cycles of a finished run do: each runs the jump to itself and ticks. -/

namespace Sys2Proof.Machine

/-! ## Reset and load (R161, R162) -/

theorem boot_fits {p : Config.Params} {img : List Byte} (h : img.length ≤ Config.memSize - p.loadAddr) :
    boot p img = .next ((State.resetWith p).setBytes p.loadAddr img) := if_pos h

theorem boot_tooLong {p : Config.Params} {img : List Byte} (h : Config.memSize - p.loadAddr < img.length) :
    boot p img = .refused (.imageTooLong img.length) := if_neg (Nat.not_le.2 h)

/-- Settles O3: the load is one store into the reset memory, which is in canonical form; a legal load address lies
inside memory, so an image that fits ends there too. -/
theorem bootCopiesImageVerbatim : Obligations.BootCopiesImageVerbatim := by
  unfold Obligations.BootCopiesImageVerbatim
  intro p img hp
  refine ⟨fun hlen => ?fits, boot_tooLong⟩
  case fits =>
    have hload : p.loadAddr ≤ 4094 := hp.2
    have hfits : p.loadAddr + img.length ≤ Config.memSize := by simp only [Config.memSize]; omega
    obtain ⟨hframe, hothers⟩ := onlyMem_setBytes (memWf_resetWith p) hfits
    exact ⟨_, boot_fits hlen, fun _ _ => byteAt_setBytes_of_getElem? (memWf_resetWith p) hfits, hothers,
      toNat_loadAddr hp, hframe⟩

/-! ## When a run has finished (R170) -/

theorem addrWord_eq_iff {nnn : Addr12} {w : Word} : addrWord nnn = w ↔ nnn.toNat = w.toNat := by
  rw [← BitVec.toNat_inj, toNat_addrWord]

theorem finished_of_fault {s : State} {f : FaultRecord} (h : s.fault = some f) : s.finished = false := by
  simp only [State.finished, h]

theorem finished_of_fetchFault {s : State} (h : s.fault = none) (hp : 4094 < s.pc.toNat) : s.finished = false := by
  simp only [State.finished, h, readWord_error hp]

/-- On a core that fetches, the fetched instruction alone decides. -/
theorem finished_iff_of_fetches {s : State} {i : Instr} (h : s.Fetches i) :
    s.finished = true ↔ ∃ nnn, i = .jpNnn nnn ∧ addrWord nnn = s.pc := by
  obtain ⟨hf, hp, hi⟩ := h
  have hi : decode (wordOfBytes (s.byteAt s.pc.toNat) (s.byteAt (s.pc.toNat + 1))) = i := hi
  simp only [State.finished, hf, readWord_ok hp, hi]
  cases i with
  | jpNnn nnn => simp
  | _ => simp

theorem finished_iff {s : State} :
    s.finished = true ↔ ∃ nnn : Addr12, s.Fetches (.jpNnn nnn) ∧ nnn.toNat = s.pc.toNat := by
  constructor
  · intro h
    have hf : s.fault = none :=
      Option.eq_none_iff_forall_ne_some.2 fun f hf => Bool.eq_false_iff.1 (finished_of_fault hf) h
    have hp : s.pc.toNat ≤ 4094 := Nat.not_lt.1 fun hp => Bool.eq_false_iff.1 (finished_of_fetchFault hf hp) h
    obtain ⟨nnn, hi, hpc⟩ := (finished_iff_of_fetches ⟨hf, hp, rfl⟩).1 h
    exact ⟨nnn, ⟨hf, hp, hi⟩, addrWord_eq_iff.1 hpc⟩
  · rintro ⟨nnn, hi, hpc⟩
    exact (finished_iff_of_fetches hi).2 ⟨nnn, rfl, addrWord_eq_iff.2 hpc⟩

/-! ## The cycles of a finished run -/

/-- The state after a cycle whose instruction jumped back to its own address: entered, `pc` back, timers ticked. -/
def State.selfJumped (s : State) : State := (s.entered.setPc s.pc).tick

theorem step_of_finished {s : State} (h : s.finished = true) : step s = .next s.selfJumped := by
  obtain ⟨nnn, hi, hpc⟩ := finished_iff.1 h
  have hexec : exec (.jpNnn nnn) s.entered = .next (s.entered.setPc s.pc) := by
    rw [← addrWord_eq_iff.2 hpc]
    rfl
  exact step_of_completed hi hexec hi.1

/-- The predicate reads the latch, memory and `pc`, and such a cycle leaves all three as they were. -/
theorem finished_selfJumped (s : State) : s.selfJumped.finished = s.finished := rfl

theorem toNat_selfJumped_dt (s : State) : s.selfJumped.dt.toNat = s.dt.toNat - 1 := toNat_countDown s.dt

theorem toNat_selfJumped_st (s : State) : s.selfJumped.st.toNat = s.st.toNat - 1 := toNat_countDown s.st

/-- A finished run goes on, stays finished and counts both timers down; beside them only the word latched and the keys
change. -/
theorem run_of_finished {s : State} (n : Nat) (h : s.finished = true) :
    ∃ t, Host.Core.run core n s = .next t ∧ t.finished = true ∧
      t.dt.toNat = s.dt.toNat - n ∧ t.st.toNat = s.st.toNat - n ∧
      t = { s with ir := t.ir, dt := t.dt, st := t.st, key := t.key, keysIn := t.keysIn } := by
  induction n generalizing s with
  | zero => exact ⟨s, run_zero s, h, rfl, rfl, rfl⟩
  | succ n ih =>
    obtain ⟨t, hrun, hfin, hdt, hst, hframe⟩ := ih ((finished_selfJumped s).trans h)
    rw [toNat_selfJumped_dt] at hdt
    rw [toNat_selfJumped_st] at hst
    exact ⟨t, (run_succ_next n (step_of_finished h)).trans hrun, hfin, by omega, by omega, hframe⟩

/-- Settles O50: a finished state fetches the jump to its own address, and each cycle of it leaves a finished state with
both timers one lower. -/
theorem finishedRunsOnlyCountDown : Obligations.FinishedRunsOnlyCountDown :=
  ⟨fun _ => finished_iff, fun _ _ => finished_of_fault, fun _ => run_of_finished⟩

end Sys2Proof.Machine
end
